-- ==== Sys2Proof/Word.lean ====
section
/-! DEFINITION. The words of BFC: bytes of BUF, the command word and the 64-bit port words. -/

namespace Sys2Proof

/-- One 8-bit unit of BUF (R30); bit 0 is its least significant bit (R9). -/
abbrev Byte := BitVec 8

/-- A 32-bit command word CMD (R22, R61). -/
abbrev Cmd := BitVec 32

/-- A 64-bit port word: the DATA operand (R22) and the RESULT register (R23). -/
abbrev Word64 := BitVec 64

end Sys2Proof
end

