-- ==== Sys2Proof/Machine/Bytes.lean ====
section
/-! DEFINITION. Byte sequences and their little-endian values (R9, R10), and the change of length of
R86. -/

namespace Sys2Proof.Machine

/-- `val(b)` of R10: the little-endian value of a byte sequence, index 0 first. -/
def val : List Byte → Nat
  | [] => 0
  | b :: bs => b.toNat + 256 * val bs

/-- `bytes_L(v)` of R10: byte `i` is `(v div 2^(8i)) mod 256`. -/
def bytesOf : Nat → Nat → List Byte
  | 0, _ => []
  | len + 1, v => BitVec.ofNat 8 v :: bytesOf len (v / 256)

/-- `trunc_N(v)` of R10. -/
def trunc (bits v : Nat) : Nat := v % 2 ^ bits

/-- `resize_M(b)` of R86: keep the `m` low-index bytes, or extend with zero bytes. -/
def resize : Nat → List Byte → List Byte
  | 0, _ => []
  | m + 1, [] => 0 :: resize m []
  | m + 1, b :: bs => b :: resize m bs

/-- `zext_64(v)` of R10, for the values of at most 8 bytes that RESULT takes (R23). -/
def zext64 (v : Nat) : Word64 := BitVec.ofNat 64 v

end Sys2Proof.Machine
end

