-- ==== Sys2Proof/Machine/MaskGen.lean ====
section
/-! DEFINITION. The derived field attributes (R100 to R102) and the mask generator (R103). -/

namespace Sys2Proof.Machine

/-- R100: the window byte a field starts in. -/
def byteOffset (boff : Nat) : Nat := boff / 8

/-- R100: the bit of that byte it starts at. -/
def bitOffsetInByte (boff : Nat) : Nat := boff % 8

/-- R101: how many bytes a field spans, the ceiling of its bits from the start of its first byte. -/
def byteCount (boff bwid : Nat) : Nat := (bitOffsetInByte boff + bwid + 7) / 8

/-- R102: the trivial predicate, of BOFF and BWID alone. -/
def trivialField (boff bwid : Nat) : Bool := bitOffsetInByte boff == 0 && bwid % 8 == 0

/-- The mask byte that takes `k` bits from bit `start` (R103). -/
def maskByte (k start : Nat) : Byte := BitVec.ofNat 8 (((1 <<< k) - 1) <<< start)

/-- R103 over the `len` bytes still to come: `skip` of them lie before the first affected byte, whose
run starts at bit `start`; every later byte takes up to 8 of the `rem` bits left from bit 0, and takes
none once `rem` is 0. -/
def maskFrom : (len skip start rem : Nat) → List Byte
  | 0, _, _, _ => []
  | len + 1, skip + 1, start, rem => 0 :: maskFrom len skip start rem
  | len + 1, 0, start, rem =>
    let k := min rem (8 - start)
    maskByte k start :: maskFrom len 0 0 (rem - k)

/-- `mask(W, BOFF, BWID)` of R103, `w` in bytes. -/
def mask (w boff bwid : Nat) : List Byte :=
  maskFrom w (byteOffset boff) (bitOffsetInByte boff) bwid

end Sys2Proof.Machine
end

