-- ==== Sys2Proof/Syntax.lean ====
section
/-! DEFINITION. The commands of BFC as decoded: one constructor per row of spec/opcode_table.json. -/

namespace Sys2Proof

/-- A field's access permission ACC (R63, R110). The code 0b11 is reserved and is no permission. -/
inductive Access where
  | rw
  | ro
  | wo
deriving DecidableEq, Repr

/-- A byte width 2^WSZ or 2^VSZ: the window width W (R6, R64) or the value width V (R7, R65). -/
inductive Width where
  | b1
  | b2
  | b4
  | b8
deriving DecidableEq, Repr

/-- The field a field command names: the tuple (WBASE, W, BOFF, BWID, V, ACC) carried by its command
word (R60, R61, glossary "Field"). Offsets, widths and indices are unbounded numbers, so that sums are
computed without overflow (R41, R164); `Instr.wf` says which of them an encoding holds. -/
structure Field where
  /-- ACC, the access permission (R63). -/
  acc : Access
  /-- W, the window width (R64). -/
  w : Width
  /-- V, the value width (R65). -/
  v : Width
  /-- WBASE, the window's first byte (R68). -/
  wbase : Nat
  /-- BOFF, the field's first bit in the window (R66). -/
  boff : Nat
  /-- BWID, the field's width in bits (R67). -/
  bwid : Nat
deriving DecidableEq, Repr

/-- A decoded command together with the DATA operand it reads (R22, R72). A command that reads no
DATA carries none (log 7, DEDUCED). -/
inductive Instr where
  /-- R146 -/
  | nop
  /-- R118 -/
  | frd (f : Field)
  /-- R119 -/
  | fwr (f : Field) (data : Word64)
  /-- R120 -/
  | fwrc (f : Field) (data : Word64)
  /-- R121 -/
  | fis (f : Field) (data : Word64)
  /-- R140 -/
  | rrd (w : Width) (wbase : Nat)
  /-- R141 -/
  | rwr (w : Width) (wbase : Nat) (data : Word64)
  /-- R106 -/
  | mask (w : Width) (boff bwid : Nat)
  /-- R89 -/
  | shr (w v : Width) (cnt : Nat) (data : Word64)
  /-- R90 -/
  | shl (w v : Width) (cnt : Nat) (data : Word64)
  /-- R87 -/
  | shr1b (data : Word64)
  /-- R88 -/
  | shl1b (data : Word64)
  /-- R143 -/
  | brd (idx : Nat)
  /-- R144 -/
  | bwr (idx : Nat) (data : Word64)
  /-- R145 -/
  | clr
  /-- R70, R161: the row of OP = 0xF, with the 28 other bits of its word (log 6,
  DEDUCED). -/
  | reservedOpF (rest : BitVec 28)
deriving DecidableEq, Repr

end Sys2Proof
end

