-- ==== Sys2Proof/WellFormed.lean ====
section
/-! DEFINITION. Which command terms an encoding holds: the ranges of R61, which are also the ranges
outside which the assembler refuses an operand (R73). -/

namespace Sys2Proof

/-- A window base or byte index has 8 bits (R68). -/
def baseFits (n : Nat) : Bool := decide (n ≤ 255)

/-- A bit offset or shift count has 6 bits (R66). -/
def offsetFits (n : Nat) : Bool := decide (n ≤ 63)

/-- A bit width has 7 bits (R67). -/
def widthFits (n : Nat) : Bool := decide (n ≤ 127)

/-- Every number of a field's descriptor fits its bits of the command word (R61). -/
def Field.wf (f : Field) : Bool := baseFits f.wbase && offsetFits f.boff && widthFits f.bwid

/-- Every operand fits its bits of the command word (R61, R73). Values that fit but are illegal are
well formed: they raise their error at execution (R73). -/
def Instr.wf : Instr → Bool
  | .nop => true
  | .frd f => f.wf
  | .fwr f _ => f.wf
  | .fwrc f _ => f.wf
  | .fis f _ => f.wf
  | .rrd _ wbase => baseFits wbase
  | .rwr _ wbase _ => baseFits wbase
  | .mask _ boff bwid => offsetFits boff && widthFits bwid
  | .shr _ _ cnt _ => offsetFits cnt
  | .shl _ _ cnt _ => offsetFits cnt
  | .shr1b _ => true
  | .shl1b _ => true
  | .brd idx => baseFits idx
  | .bwr idx _ => baseFits idx
  | .clr => true
  | .reservedOpF _ => true

end Sys2Proof
end

