-- ==== Sys2Proof/Decode.lean ====
section
/-! DEFINITION. Decoding a command word and its DATA operand, total over all words (R71), and the
encoder written from the same field layout (R61). -/

namespace Sys2Proof

/-! ### The fields of a command word (R61) -/

/-- CMD[3:0] -/
def Cmd.op (c : Cmd) : Nat := (c.extractLsb' 0 4).toNat

/-- CMD[5:4] -/
def Cmd.acc (c : Cmd) : Nat := (c.extractLsb' 4 2).toNat

/-- CMD[7:6] -/
def Cmd.wsz (c : Cmd) : Nat := (c.extractLsb' 6 2).toNat

/-- CMD[9:8] -/
def Cmd.vsz (c : Cmd) : Nat := (c.extractLsb' 8 2).toNat

/-- CMD[15:10], also the shift count CNT (R66) -/
def Cmd.boff (c : Cmd) : Nat := (c.extractLsb' 10 6).toNat

/-- CMD[22:16] -/
def Cmd.bwid (c : Cmd) : Nat := (c.extractLsb' 16 7).toNat

/-- CMD[31:24], also the byte index IDX (R68) -/
def Cmd.wbase (c : Cmd) : Nat := (c.extractLsb' 24 8).toNat

/-! ### Codes of the operand kinds -/

/-- R63. -/
def Access.code : Access → Nat
  | .rw => 0
  | .ro => 1
  | .wo => 2

/-- R63; the code 0b11 is reserved. -/
def accessOfCode : Nat → Option Access
  | 0 => some .rw
  | 1 => some .ro
  | 2 => some .wo
  | _ => none

/-- WSZ or VSZ, the base-2 logarithm of the width in bytes (R64, R65). -/
def Width.code : Width → Nat
  | .b1 => 0
  | .b2 => 1
  | .b4 => 2
  | .b8 => 3

/-- R64, R65: every 2-bit code is legal. -/
def widthOfCode : Nat → Width
  | 0 => .b1
  | 1 => .b2
  | 2 => .b4
  | _ => .b8

/-- The width in bytes, 2 to the power of its code (R64, R65). -/
def Width.bytes (w : Width) : Nat := 2 ^ w.code

/-! ### The rows of R69 -/

/-- The bits of a command word that OP alone fixes: OP and every must-be-zero bit (R69; OP = 0xF fixes
only itself, R70). -/
def rowMask : Nat → Cmd
  | 0x0 => 0xFFFFFFFF
  | 0x1 => 0x0080000F
  | 0x2 => 0x0080000F
  | 0x3 => 0x0080000F
  | 0x4 => 0x0080000F
  | 0x5 => 0x00FFFF3F
  | 0x6 => 0x00FFFF3F
  | 0x7 => 0xFF80033F
  | 0x8 => 0xFFFF003F
  | 0x9 => 0xFFFF003F
  | 0xA => 0xFFFFFFFF
  | 0xB => 0xFFFFFFFF
  | 0xC => 0x00FFFFFF
  | 0xD => 0x00FFFFFF
  | 0xE => 0xFFFFFFFF
  | _ => 0x0000000F

/-- What those bits must be: OP itself, every other fixed bit 0 (R69). -/
def rowMatch (op : Nat) : Cmd := BitVec.ofNat 32 op

/-! ### Decoding -/

/-- Why a word is a reserved spelling. Both raise ERR_RSVD (R162). -/
inductive DecodeError where
  /-- A must-be-zero bit of the row of its OP is 1 (R69). -/
  | mustBeZeroSet
  /-- A field command with ACC = 0b11 (R63). -/
  | accessReserved
deriving DecidableEq, Repr

/-- The field descriptor of a field command's word (R61, R63). -/
def decodeField (c : Cmd) : Except DecodeError Field :=
  match accessOfCode c.acc with
  | some acc =>
    .ok
      { acc := acc
        w := widthOfCode c.wsz
        v := widthOfCode c.vsz
        wbase := c.wbase
        boff := c.boff
        bwid := c.bwid }
  | none => .error .accessReserved

/-- A word whose must-be-zero bits are clear, by its OP (R62, R71). -/
def decodeRow (c : Cmd) (d : Word64) : Except DecodeError Instr :=
  match c.op with
  | 0x0 => .ok .nop
  | 0x1 => (decodeField c).map fun f => .frd f
  | 0x2 => (decodeField c).map fun f => .fwr f d
  | 0x3 => (decodeField c).map fun f => .fwrc f d
  | 0x4 => (decodeField c).map fun f => .fis f d
  | 0x5 => .ok (.rrd (widthOfCode c.wsz) c.wbase)
  | 0x6 => .ok (.rwr (widthOfCode c.wsz) c.wbase d)
  | 0x7 => .ok (.mask (widthOfCode c.wsz) c.boff c.bwid)
  | 0x8 => .ok (.shr (widthOfCode c.wsz) (widthOfCode c.vsz) c.boff d)
  | 0x9 => .ok (.shl (widthOfCode c.wsz) (widthOfCode c.vsz) c.boff d)
  | 0xA => .ok (.shr1b d)
  | 0xB => .ok (.shl1b d)
  | 0xC => .ok (.brd c.wbase)
  | 0xD => .ok (.bwr c.wbase d)
  | 0xE => .ok .clr
  | _ => .ok (.reservedOpF (c.extractLsb' 4 28))

/-- R71: the row's must-be-zero test, then ACC = 0b11 on a field command. OP = 0xF passes every test,
since its row fixes only OP, and is the table's own row of a command that raises ERR_OPCODE (R70). -/
def decode (c : Cmd) (d : Word64) : Except DecodeError Instr :=
  if c &&& rowMask c.op = rowMatch c.op then decodeRow c d else .error .mustBeZeroSet

/-! ### Encoding -/

/-- The command word of the given fields, RSV = 0 (R61). -/
def packCmd (op acc wsz vsz boff bwid wbase : Nat) : Cmd :=
  BitVec.ofNat 8 wbase ++ 0#1 ++ BitVec.ofNat 7 bwid ++ BitVec.ofNat 6 boff ++ BitVec.ofNat 2 vsz ++
    BitVec.ofNat 2 wsz ++ BitVec.ofNat 2 acc ++ BitVec.ofNat 4 op

/-- The command word of a field command (R61, R69). -/
def packField (op : Nat) (f : Field) : Cmd :=
  packCmd op f.acc.code f.w.code f.v.code f.boff f.bwid f.wbase

/-- The CMD word of a command (R62, R69): every field it does not use is 0. -/
def encodeCmd : Instr → Cmd
  | .nop => packCmd 0x0 0 0 0 0 0 0
  | .frd f => packField 0x1 f
  | .fwr f _ => packField 0x2 f
  | .fwrc f _ => packField 0x3 f
  | .fis f _ => packField 0x4 f
  | .rrd w wbase => packCmd 0x5 0 w.code 0 0 0 wbase
  | .rwr w wbase _ => packCmd 0x6 0 w.code 0 0 0 wbase
  | .mask w boff bwid => packCmd 0x7 0 w.code 0 boff bwid 0
  | .shr w v cnt _ => packCmd 0x8 0 w.code v.code cnt 0 0
  | .shl w v cnt _ => packCmd 0x9 0 w.code v.code cnt 0 0
  | .shr1b _ => packCmd 0xA 0 0 0 0 0 0
  | .shl1b _ => packCmd 0xB 0 0 0 0 0 0
  | .brd idx => packCmd 0xC 0 0 0 0 0 idx
  | .bwr idx _ => packCmd 0xD 0 0 0 0 0 idx
  | .clr => packCmd 0xE 0 0 0 0 0 0
  | .reservedOpF rest => rest ++ 0xF#4

/-- The DATA word sent with a command: 0 where the command reads none (R72, R73; log 7). -/
def encodeData : Instr → Word64
  | .nop => 0
  | .frd _ => 0
  | .fwr _ d => d
  | .fwrc _ d => d
  | .fis _ d => d
  | .rrd _ _ => 0
  | .rwr _ _ d => d
  | .mask _ _ _ => 0
  | .shr _ _ _ d => d
  | .shl _ _ _ d => d
  | .shr1b d => d
  | .shl1b d => d
  | .brd _ => 0
  | .bwr _ d => d
  | .clr => 0
  | .reservedOpF _ => 0

/-- The words of a command: CMD, then DATA (R22, R60). -/
def encode (i : Instr) : Cmd × Word64 := (encodeCmd i, encodeData i)

/-! ### The opcode table's numbering -/

/-- CMD of an instruction whose bits are `w`: its low 32 bits, those above `nbits` being 0. -/
def tableCmd (nbits w : Nat) : Cmd := BitVec.ofNat 32 (w % 2 ^ nbits)

/-- DATA of an instruction whose bits are `w`: the 64 bits after CMD, those above `nbits` being 0. -/
def tableData (nbits w : Nat) : Word64 := BitVec.ofNat 64 (w % 2 ^ nbits / 2 ^ 32)

/-- What the decoder reads from an instruction whose bits are `w`, numbered as spec/opcode_table.json
numbers them. -/
def decodeTableWord (nbits w : Nat) : Option Instr :=
  match decode (tableCmd nbits w) (tableData nbits w) with
  | .ok i => some i
  | .error _ => none

end Sys2Proof
end

