-- ==== Sys2Proof/Config.lean ====
section
/-! DEFINITION. What an implementation of BFC fixes, and the one choice the spec leaves open. -/

namespace Sys2Proof

/-- The spec's own default for the parameter NBUF (R5). `State.nbuf` starts here; statements are for
every value of that field (log 1). -/
def Config.nbufDefault : Nat := 96

/-- R185, a reset asserted while a command is in flight: does the `n`-th such command complete before
the reset acts? The spec admits both outcomes, so nothing here says which (log 4, DESIGN CHOICE,
safe). -/
opaque Config.commandCompletesBeforeReset : Nat → Bool

end Sys2Proof
end

