-- ==== Sys2Proof/Machine/State.lean ====
section
/-! DEFINITION. The state of BFC as plain data, the actions of its host, and the reasons a step can
stop. -/

namespace Sys2Proof.Machine

/-- The contents of BUF (R30): the listed bytes, addresses strictly rising, none of them 0. A byte that
is not listed reads 0, as the ZERO reset leaves it (R183; log 5, DEDUCED). -/
abbrev Memory := List Host.Cell

/-- The two reset modes (R180). -/
inductive ResetMode where
  | zero
  | noinit
deriving DecidableEq, Repr

/-- What the host can do to BFC (log 2). Reading the outputs changes nothing (R32) and is no action. -/
inductive HostAction where
  /-- Send the command (CMD, DATA) on the command port (R22). -/
  | command (cmd : Cmd) (data : Word64)
  /-- RESET(mode) between commands (R180). -/
  | reset (mode : ResetMode)
  /-- RESET(mode) asserted while the command (CMD, DATA) is in flight (R185). -/
  | resetInFlight (mode : ResetMode) (cmd : Cmd) (data : Word64)
deriving DecidableEq, Repr

/-- Everything the spec gives BFC (10_state.md), and three fields of the model's own. -/
structure State where
  /-- BUF (R30). -/
  buf : Memory
  /-- RESULT (R23). -/
  result : Word64
  /-- FLAG (R24). -/
  flag : Bool
  /-- STATUS, one word with the fields of R25. -/
  status : BitVec 32
  /-- ERRCMD (R29). -/
  errcmd : Cmd
  /-- The model's own: the parameter NBUF (R5), which no step changes (log 1, DESIGN
  CHOICE). -/
  nbuf : Nat
  /-- The model's own: what the host will do, next action first (R21, R34; log 2, DESIGN
  CHOICE). -/
  inputs : List HostAction
  /-- The model's own: how many of R185's free choices have been taken (log 4, DESIGN
  CHOICE). -/
  choices : Nat
deriving DecidableEq, Repr

/-- Why the machine stops with a fault: never. Every error of the spec is the error action of R170,
which is a next state; the type is empty (log 11, DEDUCED). -/
inductive Fault
deriving DecidableEq, Repr

/-- Why a step has no meaning. -/
inductive Refusal where
  /-- An arm of `exec` that has no meaning yet, by its mnemonic. Safe: nothing is claimed of it. No arm
  of this model raises it. -/
  | notModelled (mnemonic : String)
deriving DecidableEq, Repr

/-- BFC right after RESET(ZERO) at power-up, NBUF at the spec's default, with nothing sent yet (R180,
R183, R184; log 3, DESIGN CHOICE). -/
def State.reset : State :=
  { buf := []
    result := 0
    flag := false
    status := 0
    errcmd := 0
    nbuf := Config.nbufDefault
    inputs := []
    choices := 0 }

end Sys2Proof.Machine
end

