-- ==== Sys2Proof/Machine/Flags.lean ====
section
/-! DEFINITION. The STATUS register's fields (R25), the error codes (R160), the flag computations, and
what the host reads (R32, R33). -/

namespace Sys2Proof.Machine

/-- The eight errors (R161 to R168). -/
inductive ErrCode where
  /-- R161: OP = 0xF. -/
  | opcode
  /-- R162: a reserved spelling. -/
  | rsvd
  /-- R163: BWID is 0 or above 64. -/
  | width
  /-- R164: BOFF + BWID exceeds the window's bits. -/
  | range
  /-- R165: BWID exceeds the value's bits. -/
  | value
  /-- R166: the window runs past NBUF. -/
  | window
  /-- R167: the operation is against the field's permission. -/
  | access
  /-- R168: the index is at or past NBUF. -/
  | index
deriving DecidableEq, Repr

/-- The STATUS.ECODE value of an error (R160's table). -/
def errNumber : ErrCode → BitVec 4
  | .opcode => 1
  | .rsvd => 2
  | .width => 3
  | .range => 4
  | .value => 5
  | .window => 6
  | .access => 7
  | .index => 8

/-! ### Fields of a STATUS word (R25) -/

/-- STATUS[0], HALT (R26). -/
def statusHalt (st : BitVec 32) : Bool := st.getLsbD 0

/-- STATUS[4:1], ECODE (R27). -/
def statusEcode (st : BitVec 32) : BitVec 4 := st.extractLsb' 1 4

/-- STATUS[5], TRIV (R28). -/
def statusTriv (st : BitVec 32) : Bool := st.getLsbD 5

/-- STATUS[31:6], which always read 0 (R25). -/
def statusReserved (st : BitVec 32) : BitVec 26 := st.extractLsb' 6 26

/-- STATUS with TRIV replaced and every other bit kept (R28; log 14). -/
def withTriv (st : BitVec 32) (t : Bool) : BitVec 32 :=
  statusReserved st ++ BitVec.ofBool t ++ statusEcode st ++ BitVec.ofBool (statusHalt st)

/-- STATUS with HALT set and ECODE replaced, and every other bit kept (R170; log 14). -/
def withError (st : BitVec 32) (e : ErrCode) : BitVec 32 :=
  statusReserved st ++ BitVec.ofBool (statusTriv st) ++ errNumber e ++ 1#1

/-- STATUS.HALT of a state. -/
def State.halted (s : State) : Bool := statusHalt s.status

/-! ### Flag computations -/

/-- FLAG of FIS: the value read equals the comparand (R121). -/
def flagEqual (value comparand : Nat) : Bool := value == comparand

/-- FLAG of SHR1B and SHL1B: the carry of the single-byte shift (R87, R88). -/
def flagCarry (shifted : Byte × Bool) : Bool := shifted.2

/-! ### What the host reads -/

/-- The output signal ERR_O, equal to STATUS.HALT at all times (R33, R174). -/
def State.errO (s : State) : Bool := s.halted

/-- The registers and the signal a host can read (R32, R33). -/
structure Outputs where
  result : Word64
  flag : Bool
  status : BitVec 32
  errcmd : Cmd
  errO : Bool
deriving DecidableEq, Repr

/-- Reading the outputs: a view of the state, so it has no side effect, halted or not (R32). -/
def State.outputs (s : State) : Outputs :=
  { result := s.result
    flag := s.flag
    status := s.status
    errcmd := s.errcmd
    errO := s.errO }

end Sys2Proof.Machine
end

