-- ==== Sys2Proof/Machine/Ops.lean ====
section
/-! DEFINITION. The named operations over BUF and the registers, the error action (R170), reset
(R180), and the one shape every command has (R169, R171). -/

namespace Sys2Proof.Machine

/-! ### BUF -/

/-- The byte at index `k` (R40). -/
def Memory.readByte : Memory → Nat → Byte
  | [], _ => 0
  | c :: m, k => if k = c.1 then c.2 else Memory.readByte m k

/-- Store `v` at index `k`, in canonical form: a byte equal to 0 is not listed (log 5). -/
def Memory.writeByte : Memory → Nat → Byte → Memory
  | [], k, v => if v = 0 then [] else [(k, v)]
  | c :: m, k, v =>
    if k < c.1 then (if v = 0 then c :: m else (k, v) :: c :: m)
    else if k = c.1 then (if v = 0 then m else (k, v) :: m)
    else c :: Memory.writeByte m k v

/-- The canonical form: addresses strictly rising, no listed byte 0. -/
def Memory.wf : Memory → Bool
  | [] => true
  | c :: m => c.2 != 0 && m.all (fun d => decide (c.1 < d.1)) && Memory.wf m

/-- The bytes at `a`, `a + 1`, and so on, `n` of them (R41). -/
def Memory.readBytes (m : Memory) : (a n : Nat) → List Byte
  | _, 0 => []
  | a, n + 1 => m.readByte a :: m.readBytes (a + 1) n

/-- Store a byte sequence at `a` and up (R11). -/
def Memory.writeBytes : Memory → Nat → List Byte → Memory
  | m, _, [] => m
  | m, a, b :: bs => Memory.writeBytes (m.writeByte a b) (a + 1) bs

/-- `MemRead(a, n)` of R11: the little-endian value of `n` bytes (R42). -/
def Memory.readVal (m : Memory) (a n : Nat) : Nat := val (m.readBytes a n)

/-- `MemWrite(a, n, v)` of R11. -/
def Memory.writeVal (m : Memory) (a n v : Nat) : Memory := m.writeBytes a (bytesOf n v)

/-- Every index below `nbuf` set to 0 (R145, R183). -/
def Memory.zeroed (m : Memory) (nbuf : Nat) : Memory := m.writeBytes 0 (List.replicate nbuf 0)

/-! ### Writing the registers -/

/-- BUF <- m -/
def State.setBuf (s : State) (m : Memory) : State := { s with buf := m }

/-- RESULT <- v (R23) -/
def State.setResult (s : State) (v : Word64) : State := { s with result := v }

/-- FLAG <- f (R24) -/
def State.setFlag (s : State) (f : Bool) : State := { s with flag := f }

/-- STATUS.TRIV <- t (R28) -/
def State.setTriv (s : State) (t : Bool) : State := { s with status := withTriv s.status t }

/-- The host actions still to come. -/
def State.setInputs (s : State) (l : List HostAction) : State := { s with inputs := l }

/-! ### The error action and the way back -/

/-- `raise Error(code)` of R170: HALT, ECODE and ERRCMD, and nothing else. -/
def State.raiseError (s : State) (e : ErrCode) (cmd : Cmd) : State :=
  { s with status := withError s.status e, errcmd := cmd }

/-- BUF after a reset (R181, R183): zeroed, or as it was. -/
def State.bufAfterReset (s : State) : ResetMode → Memory
  | .zero => s.buf.zeroed s.nbuf
  | .noinit => s.buf

/-- `RESET(mode)` of R180, the only way out of the halted state (R172). What the host will send next
is not BFC's and stays (log 2). -/
def State.applyReset (s : State) (mode : ResetMode) : State :=
  { s with
    buf := s.bufAfterReset mode
    result := 0
    flag := false
    status := 0
    errcmd := 0 }

/-- The first reset after power-up, with NBUF and BUF0 as parameters (R5, R182). Before it, BUF holds
BUF0; the registers' values there do not matter, since the reset writes every one (log 3). -/
def State.powerOnReset (nbuf : Nat) (buf0 : List Byte) (mode : ResetMode) : State :=
  State.applyReset
    { State.reset with buf := Memory.writeBytes [] 0 (buf0.take nbuf), nbuf := nbuf } mode

/-! ### The shape of a command -/

/-- R171: while HALT = 1 a command is discarded and changes nothing. -/
def State.whenRunning (s : State) (o : Host.Outcome State Fault Refusal) :
    Host.Outcome State Fault Refusal :=
  if s.halted then .next s else o

/-- R169, R170: the first error that applies, or else the command's effect. Every check comes before
any write. -/
def State.command (s : State) (cmd : Cmd) (err : Option ErrCode) (effect : State → State) :
    Host.Outcome State Fault Refusal :=
  s.whenRunning <|
    match err with
    | some e => .next (s.raiseError e cmd)
    | none => .next (effect s)

end Sys2Proof.Machine
end

