-- ==== Sys2Proof/Machine/Operands.lean ====
section
/-! DEFINITION. What each command reads as its operands (R41, R72) and its value checks in their order
(R163 to R169). -/

namespace Sys2Proof.Machine

/-! ### DATA (R72, R43) -/

/-- The low bytes of DATA, as a number: `trunc_{8L}(DATA)`. -/
def dataValue (len : Width) (d : Word64) : Nat := trunc (8 * len.bytes) d.toNat

/-- The low bytes of DATA, as a byte sequence: `bytes_L(DATA)`. -/
def dataBytes (len : Width) (d : Word64) : List Byte := bytesOf len.bytes d.toNat

/-- DATA[7:0]. -/
def dataByte (d : Word64) : Byte := d.extractLsb' 0 8

/-! ### Windows (R41) -/

/-- `WIN = BUF[WBASE .. WBASE+W-1]`. -/
def State.window (s : State) (wbase : Nat) (w : Width) : List Byte := s.buf.readBytes wbase w.bytes

/-- `BUF[WBASE .. WBASE+W-1] <- WIN`. -/
def State.setWindow (s : State) (wbase : Nat) (win : List Byte) : State :=
  s.setBuf (s.buf.writeBytes wbase win)

/-! ### Value checks -/

/-- Whether a field command needs a readable or a writable field (R110). -/
inductive Need where
  | read
  | write
deriving DecidableEq, Repr

/-- R110's table. -/
def accessAllows : Access → Need → Bool
  | .rw, _ => true
  | .ro, .read => true
  | .ro, .write => false
  | .wo, .read => false
  | .wo, .write => true

/-- The first check of the list that is broken, if any (R169). -/
def firstError : List (Bool × ErrCode) → Option ErrCode
  | [] => none
  | c :: cs => if c.1 then some c.2 else firstError cs

/-- R163. -/
def widthBroken (bwid : Nat) : Bool := bwid == 0 || decide (64 < bwid)

/-- R164. -/
def rangeBroken (w : Width) (boff bwid : Nat) : Bool := decide (8 * w.bytes < boff + bwid)

/-- R165. -/
def valueBroken (v : Width) (bwid : Nat) : Bool := decide (8 * v.bytes < bwid)

/-- R166. -/
def windowBroken (nbuf wbase : Nat) (w : Width) : Bool := decide (nbuf < wbase + w.bytes)

/-- R168. -/
def indexBroken (nbuf idx : Nat) : Bool := decide (nbuf ≤ idx)

/-- `check_field(need)` of 42_field_access.md, in the order of R169. -/
def fieldError (nbuf : Nat) (f : Field) (need : Need) : Option ErrCode :=
  firstError
    [(widthBroken f.bwid, .width),
     (rangeBroken f.w f.boff f.bwid, .range),
     (valueBroken f.v f.bwid, .value),
     (windowBroken nbuf f.wbase f.w, .window),
     (!accessAllows f.acc need, .access)]

/-- The checks of MASK (R106, R169). -/
def maskError (w : Width) (boff bwid : Nat) : Option ErrCode :=
  firstError [(widthBroken bwid, .width), (rangeBroken w boff bwid, .range)]

/-- The check of RRD and RWR (R169). -/
def windowError (nbuf wbase : Nat) (w : Width) : Option ErrCode :=
  firstError [(windowBroken nbuf wbase w, .window)]

/-- The check of BRD and BWR (R169). -/
def indexError (nbuf idx : Nat) : Option ErrCode :=
  firstError [(indexBroken nbuf idx, .index)]

/-- Whether the named field is trivial (R102). -/
def fieldTrivial (f : Field) : Bool := trivialField f.boff f.bwid

end Sys2Proof.Machine
end

