-- ==== Sys2Proof/Machine/ShiftEngine.lean ====
section
/-! DEFINITION. The carry-propagating shift engine (R80 to R83), bit-serial as the spec writes it. -/

namespace Sys2Proof.Machine

/-- R80: the byte shifted right by one, and its original bit 0. -/
def shr1 (b : Byte) : Byte × Bool := (b >>> 1, b.getLsbD 0)

/-- R81: the byte shifted left by one, and its original bit 7. -/
def shl1 (b : Byte) : Byte × Bool := (b <<< 1, b.getLsbD 7)

/-- A carry placed at bit 7 (R82). -/
def carryHigh (c : Bool) : Byte := if c then 0x80 else 0

/-- A carry placed at bit 0 (R83). -/
def carryLow (c : Bool) : Byte := if c then 0x01 else 0

/-- One round of R82: the bytes above index 0 first, then byte 0 with their carry in its bit 7. Also
answers the carry out of byte 0. -/
def shiftRightRound : List Byte → List Byte × Bool
  | [] => ([], false)
  | b :: bs =>
    let above := shiftRightRound bs
    let here := shr1 b
    ((here.1 ||| carryHigh above.2) :: above.1, here.2)

/-- R82: `n` rounds; the carry out of byte 0 is discarded. -/
def shiftRight (b : List Byte) : Nat → List Byte
  | 0 => b
  | n + 1 => shiftRight (shiftRightRound b).1 n

/-- One round of R83, from the lowest index up, with the carry into byte 0 given. -/
def shiftLeftRound (cin : Bool) : List Byte → List Byte
  | [] => []
  | b :: bs =>
    let here := shl1 b
    (here.1 ||| carryLow cin) :: shiftLeftRound here.2 bs

/-- R83: `n` rounds; nothing shifts into byte 0 and the carry out of the last byte is discarded. -/
def shiftLeft (b : List Byte) : Nat → List Byte
  | 0 => b
  | n + 1 => shiftLeft (shiftLeftRound false b) n

end Sys2Proof.Machine
end

