-- ==== Sys2Proof/Machine/FieldAccess.lean ====
section
/-! DEFINITION. FRD, FWR, FWRC and FIS, with the trivial and masked paths (42_field_access.md). -/

namespace Sys2Proof.Machine

/-! ### The two paths -/

/-- R112: the field's own bytes, zero-extended. -/
def trivRead (win : List Byte) (boff bwid : Nat) : Nat :=
  val ((win.drop (byteOffset boff)).take (bwid / 8))

/-- Byte by byte AND (R113). -/
def andBytes : List Byte → List Byte → List Byte
  | a :: as, b :: bs => (a &&& b) :: andBytes as bs
  | _, _ => []

/-- R113; `w` and `v` in bytes. -/
def maskedRead (win : List Byte) (w boff bwid v : Nat) : Nat :=
  val (resize v (shiftRight (andBytes win (mask w boff bwid)) boff))

/-- R114: the low `bwid / 8` bytes of the V-byte value replace the field's bytes. -/
def trivWrite (win : List Byte) (boff bwid v value : Nat) : List Byte :=
  win.take (byteOffset boff) ++ (bytesOf v value).take (bwid / 8) ++
    win.drop (byteOffset boff + bwid / 8)

/-- `(old AND NOT mask) OR (new AND mask)` on each byte lane (R115). -/
def mergeBytes : (old new mask : List Byte) → List Byte
  | o :: os, n :: ns, m :: ms => ((o &&& ~~~m) ||| (n &&& m)) :: mergeBytes os ns ms
  | _, _, _ => []

/-- R115; `w` and `v` in bytes. -/
def maskedWrite (win : List Byte) (w boff bwid v value : Nat) : List Byte :=
  mergeBytes win (shiftLeft (resize w (bytesOf v value)) boff) (mask w boff bwid)

/-- R111: the value a field has in its window. -/
def fieldRead (f : Field) (win : List Byte) : Nat :=
  if fieldTrivial f then trivRead win f.boff f.bwid
  else maskedRead win f.w.bytes f.boff f.bwid f.v.bytes

/-- R111: the window after a write of the field. -/
def fieldWrite (f : Field) (win : List Byte) (value : Nat) : List Byte :=
  if fieldTrivial f then trivWrite win f.boff f.bwid f.v.bytes value
  else maskedWrite win f.w.bytes f.boff f.bwid f.v.bytes value

/-! ### What the commands do once their checks have passed -/

/-- The field's value in a state (R118, R121). -/
def State.fieldValue (s : State) (f : Field) : Nat := fieldRead f (s.window f.wbase f.w)

/-- Store the value of DATA in the field (R119). -/
def State.storeField (s : State) (f : Field) (data : Word64) : State :=
  (s.setWindow f.wbase (fieldWrite f (s.window f.wbase f.w) (dataValue f.v data))).setTriv
    (fieldTrivial f)

/-! ### The commands -/

/-- R118. -/
def execFrd (f : Field) (s : State) : Host.Outcome State Fault Refusal :=
  s.command (encodeCmd (.frd f)) (fieldError s.nbuf f .read) fun s =>
    (s.setResult (zext64 (s.fieldValue f))).setTriv (fieldTrivial f)

/-- R119. -/
def execFwr (f : Field) (data : Word64) (s : State) : Host.Outcome State Fault Refusal :=
  s.command (encodeCmd (.fwr f data)) (fieldError s.nbuf f .write) fun s => s.storeField f data

/-- R120: the constant stands in DATA, and the effect is that of FWR. -/
def execFwrc (f : Field) (data : Word64) (s : State) : Host.Outcome State Fault Refusal :=
  s.command (encodeCmd (.fwrc f data)) (fieldError s.nbuf f .write) fun s => s.storeField f data

/-- R121: FLAG and TRIV; RESULT is not written. -/
def execFis (f : Field) (data : Word64) (s : State) : Host.Outcome State Fault Refusal :=
  s.command (encodeCmd (.fis f data)) (fieldError s.nbuf f .read) fun s =>
    (s.setFlag (flagEqual (s.fieldValue f) (dataValue f.v data))).setTriv (fieldTrivial f)

end Sys2Proof.Machine
end

