-- ==== Sys2Proof/Machine/MaskCmd.lean ====
section
/-! DEFINITION. MASK (41_mask.md). -/

namespace Sys2Proof.Machine

/-- R106. -/
def execMask (w : Width) (boff bwid : Nat) (s : State) : Host.Outcome State Fault Refusal :=
  s.command (encodeCmd (.mask w boff bwid)) (maskError w boff bwid) fun s =>
    s.setResult (zext64 (val (mask w.bytes boff bwid)))

end Sys2Proof.Machine
end

