-- ==== Sys2Proof/Machine/Register.lean ====
section
/-! DEFINITION. RRD, RWR, BRD, BWR, CLR and NOP (43_register_buffer.md), and the reserved OP = 0xF
(60_exceptions.md R161). -/

namespace Sys2Proof.Machine

/-- R140. -/
def execRrd (w : Width) (wbase : Nat) (s : State) : Host.Outcome State Fault Refusal :=
  s.command (encodeCmd (.rrd w wbase)) (windowError s.nbuf wbase w) fun s =>
    s.setResult (zext64 (s.buf.readVal wbase w.bytes))

/-- R141. -/
def execRwr (w : Width) (wbase : Nat) (data : Word64) (s : State) :
    Host.Outcome State Fault Refusal :=
  s.command (encodeCmd (.rwr w wbase data)) (windowError s.nbuf wbase w) fun s =>
    s.setBuf (s.buf.writeVal wbase w.bytes (dataValue w data))

/-- R143. -/
def execBrd (idx : Nat) (s : State) : Host.Outcome State Fault Refusal :=
  s.command (encodeCmd (.brd idx)) (indexError s.nbuf idx) fun s =>
    s.setResult (zext64 (s.buf.readByte idx).toNat)

/-- R144. -/
def execBwr (idx : Nat) (data : Word64) (s : State) : Host.Outcome State Fault Refusal :=
  s.command (encodeCmd (.bwr idx data)) (indexError s.nbuf idx) fun s =>
    s.setBuf (s.buf.writeByte idx (dataByte data))

/-- R145. -/
def execClr (s : State) : Host.Outcome State Fault Refusal :=
  s.command (encodeCmd .clr) none fun s => s.setBuf (s.buf.zeroed s.nbuf)

/-- R146. -/
def execNop (s : State) : Host.Outcome State Fault Refusal :=
  s.command (encodeCmd .nop) none fun s => s

/-- R161: every word with OP = 0xF raises ERR_OPCODE. -/
def execReservedOpF (rest : BitVec 28) (s : State) : Host.Outcome State Fault Refusal :=
  s.command (encodeCmd (.reservedOpF rest)) (some .opcode) fun s => s

end Sys2Proof.Machine
end

