-- ==== Sys2Proof/Machine/Shift.lean ====
section
/-! DEFINITION. SHR1B, SHL1B, SHR and SHL (40_shift_engine.md). None makes a value check (R169). -/

namespace Sys2Proof.Machine

/-- R87. -/
def execShr1b (data : Word64) (s : State) : Host.Outcome State Fault Refusal :=
  s.command (encodeCmd (.shr1b data)) none fun s =>
    let shifted := shr1 (dataByte data)
    (s.setResult (zext64 shifted.1.toNat)).setFlag (flagCarry shifted)

/-- R88. -/
def execShl1b (data : Word64) (s : State) : Host.Outcome State Fault Refusal :=
  s.command (encodeCmd (.shl1b data)) none fun s =>
    let shifted := shl1 (dataByte data)
    (s.setResult (zext64 shifted.1.toNat)).setFlag (flagCarry shifted)

/-- R89: shift the W bytes of DATA, then resize to V. -/
def execShr (w v : Width) (cnt : Nat) (data : Word64) (s : State) :
    Host.Outcome State Fault Refusal :=
  s.command (encodeCmd (.shr w v cnt data)) none fun s =>
    s.setResult (zext64 (val (resize v.bytes (shiftRight (dataBytes w data) cnt))))

/-- R90: resize the V bytes of DATA to W, then shift. -/
def execShl (w v : Width) (cnt : Nat) (data : Word64) (s : State) :
    Host.Outcome State Fault Refusal :=
  s.command (encodeCmd (.shl w v cnt data)) none fun s =>
    s.setResult (zext64 (val (shiftLeft (resize w.bytes (dataBytes v data)) cnt)))

end Sys2Proof.Machine
end

