-- ==== Sys2Proof/Machine/Dispatch.lean ====
section
/-! DEFINITION. One arm per constructor of Instr. -/

namespace Sys2Proof.Machine

def exec (i : Instr) (s : State) : Host.Outcome State Fault Refusal :=
  match i with
  | .nop => Sys2Proof.Machine.execNop s
  | .frd f => Sys2Proof.Machine.execFrd f s
  | .fwr f data => Sys2Proof.Machine.execFwr f data s
  | .fwrc f data => Sys2Proof.Machine.execFwrc f data s
  | .fis f data => Sys2Proof.Machine.execFis f data s
  | .rrd w wbase => Sys2Proof.Machine.execRrd w wbase s
  | .rwr w wbase data => Sys2Proof.Machine.execRwr w wbase data s
  | .mask w boff bwid => Sys2Proof.Machine.execMask w boff bwid s
  | .shr w v cnt data => Sys2Proof.Machine.execShr w v cnt data s
  | .shl w v cnt data => Sys2Proof.Machine.execShl w v cnt data s
  | .shr1b data => Sys2Proof.Machine.execShr1b data s
  | .shl1b data => Sys2Proof.Machine.execShl1b data s
  | .brd idx => Sys2Proof.Machine.execBrd idx s
  | .bwr idx data => Sys2Proof.Machine.execBwr idx data s
  | .clr => Sys2Proof.Machine.execClr s
  | .reservedOpF rest => Sys2Proof.Machine.execReservedOpF rest s

end Sys2Proof.Machine
end

