-- ==== Sys2Proof/Machine/Port.lean ====
section
/-! DEFINITION. What each host action does: a command, a reset, a reset asserted during a command. -/

namespace Sys2Proof.Machine

/-- A command handed to the port (R169, R171): discarded while halted; a reserved spelling raises
ERR_RSVD (R162); anything else runs. -/
def State.runCommand (s : State) (cmd : Cmd) (data : Word64) : Host.Outcome State Fault Refusal :=
  s.whenRunning <|
    match decode cmd data with
    | .ok i => exec i s
    | .error _ => .next (s.raiseError .rsvd cmd)

/-- The next of R185's free choices taken. -/
def State.countChoice (s : State) : State := { s with choices := s.choices + 1 }

/-- A reset asserted while a command is in flight (R185): the reset after the completed command, or the
reset as if the command had not been sent, as the free choice of Config has it (log 4). -/
def State.resetDuring (s : State) (mode : ResetMode) (cmd : Cmd) (data : Word64) :
    Host.Outcome State Fault Refusal :=
  let chosen := s.countChoice
  if Config.commandCompletesBeforeReset s.choices then
    match chosen.runCommand cmd data with
    | .next t => .next (t.applyReset mode)
    | .fault r => .fault r
    | .refused r => .refused r
  else .next (chosen.applyReset mode)

/-- One host action. -/
def State.perform (s : State) : HostAction → Host.Outcome State Fault Refusal
  | .command cmd data => s.runCommand cmd data
  | .reset mode => .next (s.applyReset mode)
  | .resetInFlight mode cmd data => s.resetDuring mode cmd data

/-- The next action of the host, off the list (R50). With no action left nothing happens (log 2). -/
def State.serve (s : State) : Host.Outcome State Fault Refusal :=
  match s.inputs with
  | [] => .next s
  | a :: rest => (s.setInputs rest).perform a

/-- Put a command at the head of what the host will send. -/
def State.sendFirst (s : State) (cmd : Cmd) (data : Word64) : State :=
  s.setInputs (.command cmd data :: s.inputs)

end Sys2Proof.Machine
end

