-- ==== Sys2Proof/Machine/Step.lean ====
section
/-! DEFINITION. One step of BFC: one action of its host, whole (R47, R50, R187). -/

namespace Sys2Proof.Machine

/-- One step. -/
def step (s : State) : Host.Outcome State Fault Refusal := s.serve

/-- `s` with the instruction of bits `w` as the next command the host sends (log 2). -/
def State.withFetchWord (s : State) (nbits w : Nat) : State :=
  s.sendFirst (tableCmd nbits w) (tableData nbits w)

end Sys2Proof.Machine
end

