-- ==== Sys2Proof/Machine/Assembler.lean ====
section
/-! DEFINITION. The assembler of R73 and the pseudo-instructions of R74: from the text of one line to
the command it stands for. What `encode` makes of that command is the word and the DATA to send. -/

namespace Sys2Proof.Machine

/-- One assembler line, its operands still unbounded numbers (R73, R74). -/
inductive AsmLine where
  | frd (acc : Option Access) (w v : Width) (base off wid : Nat)
  | fwr (acc : Option Access) (w v : Width) (base off wid : Nat) (data : Option Nat)
  | fwrc (acc : Option Access) (w v : Width) (base off wid : Nat) (data : Option Nat)
  | fis (acc : Option Access) (w v : Width) (base off wid : Nat) (data : Option Nat)
  | rrd (w : Width) (base : Nat)
  | rwr (w : Width) (base : Nat) (data : Option Nat)
  | mask (w : Width) (off wid : Nat)
  | shr (w v : Width) (cnt : Nat) (data : Option Nat)
  | shl (w v : Width) (cnt : Nat) (data : Option Nat)
  | shr1b (data : Option Nat)
  | shl1b (data : Option Nat)
  | brd (idx : Nat)
  | bwr (idx : Nat) (data : Option Nat)
  | clr
  | nop
  | fset (acc : Option Access) (w v : Width) (base bit : Nat)
  | fclr (acc : Option Access) (w v : Width) (base bit : Nat)
  | ftst (acc : Option Access) (w v : Width) (base bit : Nat)
  | rzero (w : Width) (base : Nat)
deriving DecidableEq, Repr

/-- R74: a pseudo-instruction's expansion; every other line is itself. -/
def expandPseudo : AsmLine → AsmLine
  | .fset acc w v base bit => .fwr acc w v base bit 1 (some 1)
  | .fclr acc w v base bit => .fwr acc w v base bit 1 (some 0)
  | .ftst acc w v base bit => .fis acc w v base bit 1 (some 1)
  | .rzero w base => .rwr w base (some 0)
  | line => line

/-- The field an assembler line names; an omitted `acc` is `rw` (R73). -/
def asmField (acc : Option Access) (w v : Width) (base off wid : Nat) : Field :=
  { acc := acc.getD .rw
    w := w
    v := v
    wbase := base
    boff := off
    bwid := wid }

/-- The DATA operand: omitted means 0, and a number of more than 64 bits is refused (R73). -/
def asmData : Option Nat → Option Word64
  | none => some 0
  | some n => if n < 2 ^ 64 then some (BitVec.ofNat 64 n) else none

/-- The command a line that is no pseudo-instruction names, its operands not yet checked. -/
def asmCommand : AsmLine → Option Instr
  | .frd acc w v base off wid => some (.frd (asmField acc w v base off wid))
  | .fwr acc w v base off wid data => (asmData data).map fun d => .fwr (asmField acc w v base off wid) d
  | .fwrc acc w v base off wid data => (asmData data).map fun d => .fwrc (asmField acc w v base off wid) d
  | .fis acc w v base off wid data => (asmData data).map fun d => .fis (asmField acc w v base off wid) d
  | .rrd w base => some (.rrd w base)
  | .rwr w base data => (asmData data).map fun d => .rwr w base d
  | .mask w off wid => some (.mask w off wid)
  | .shr w v cnt data => (asmData data).map fun d => .shr w v cnt d
  | .shl w v cnt data => (asmData data).map fun d => .shl w v cnt d
  | .shr1b data => (asmData data).map fun d => .shr1b d
  | .shl1b data => (asmData data).map fun d => .shl1b d
  | .brd idx => some (.brd idx)
  | .bwr idx data => (asmData data).map fun d => .bwr idx d
  | .clr => some .clr
  | .nop => some .nop
  | .fset _ _ _ _ _ => none
  | .fclr _ _ _ _ _ => none
  | .ftst _ _ _ _ _ => none
  | .rzero _ _ => none

/-- R73: the command of a line, or nothing where an operand is out of its field's encodable range. -/
def assemble (line : AsmLine) : Option Instr :=
  match asmCommand (expandPseudo line) with
  | some i => if i.wf then some i else none
  | none => none

/-! ### The text of a line (R73; log 13, DESIGN CHOICE) -/

/-- One operand as written. -/
inductive AsmOperand where
  | acc (a : Access)
  | window (w : Width)
  | value (v : Width)
  | number (n : Nat)
  | data (n : Nat)
deriving DecidableEq, Repr

/-- The value of a digit, at most hexadecimal. -/
def digitValue (c : Char) : Option Nat :=
  if '0' ≤ c ∧ c ≤ '9' then some (c.toNat - '0'.toNat)
  else if 'a' ≤ c ∧ c ≤ 'f' then some (c.toNat - 'a'.toNat + 10)
  else if 'A' ≤ c ∧ c ≤ 'F' then some (c.toNat - 'A'.toNat + 10)
  else none

/-- A run of digits of the given base, after those already read. -/
def digitsFrom (base acc : Nat) : List Char → Option Nat
  | [] => some acc
  | c :: cs =>
    match digitValue c with
    | some n => if n < base then digitsFrom base (acc * base + n) cs else none
    | none => none

/-- "Numbers are decimal, or hexadecimal with 0x" (R73). -/
def readNumber : List Char → Option Nat
  | [] => none
  | '0' :: 'x' :: [] => none
  | '0' :: 'x' :: ds => digitsFrom 16 0 ds
  | ds => digitsFrom 10 0 ds

/-- `<w>` and `<v>` are 1, 2, 4 or 8 (R73). -/
def readWidth : List Char → Option Width
  | ['1'] => some .b1
  | ['2'] => some .b2
  | ['4'] => some .b4
  | ['8'] => some .b8
  | _ => none

/-- One operand's text, with no blanks around it (R73). -/
def readOperand : List Char → Option AsmOperand
  | ['r', 'w'] => some (.acc .rw)
  | ['r', 'o'] => some (.acc .ro)
  | ['w', 'o'] => some (.acc .wo)
  | 'W' :: cs => (readWidth cs).map .window
  | 'V' :: cs => (readWidth cs).map .value
  | '#' :: cs => (readNumber cs).map .data
  | cs => (readNumber cs).map .number

/-- A blank between the parts of a line. -/
def isBlank (c : Char) : Bool := c == ' ' || c == '\t'

/-- A text without the blanks at its two ends. -/
def trimBlanks (cs : List Char) : List Char :=
  ((cs.dropWhile isBlank).reverse.dropWhile isBlank).reverse

/-- The pieces of a text between its commas. -/
def splitCommas : List Char → List (List Char)
  | [] => [[]]
  | c :: cs =>
    if c = ',' then [] :: splitCommas cs
    else
      match splitCommas cs with
      | [] => [[c]]
      | piece :: rest => (c :: piece) :: rest

/-- Every operand of a list, or nothing where one cannot be read. -/
def readOperands : List (List Char) → Option (List AsmOperand)
  | [] => some []
  | cs :: rest =>
    match readOperand (trimBlanks cs), readOperands rest with
    | some o, some os => some (o :: os)
    | _, _ => none

/-- The operands after a mnemonic. -/
def operandsOf (cs : List Char) : Option (List AsmOperand) :=
  if trimBlanks cs = [] then some [] else readOperands (splitCommas cs)

/-- The optional `acc` at the head of a field command's operands (R73). -/
def leadingAcc : List AsmOperand → Option Access × List AsmOperand
  | .acc a :: os => (some a, os)
  | os => (none, os)

/-- The optional `#<data>` that ends a line. -/
def trailingData : List AsmOperand → Option (Option Nat)
  | [] => some none
  | [.data n] => some (some n)
  | _ => none

/-- The line of a mnemonic and its operands, where R73 or R74 has one of that form. -/
def lineOf (mnemonic : List Char) (os : List AsmOperand) : Option AsmLine :=
  let (acc, fos) := leadingAcc os
  if mnemonic = "FRD".toList then
    match fos with
    | [.window w, .value v, .number b, .number o, .number n] => some (.frd acc w v b o n)
    | _ => none
  else if mnemonic = "FWR".toList then
    match fos with
    | .window w :: .value v :: .number b :: .number o :: .number n :: d =>
      (trailingData d).map (.fwr acc w v b o n)
    | _ => none
  else if mnemonic = "FWRC".toList then
    match fos with
    | .window w :: .value v :: .number b :: .number o :: .number n :: d =>
      (trailingData d).map (.fwrc acc w v b o n)
    | _ => none
  else if mnemonic = "FIS".toList then
    match fos with
    | .window w :: .value v :: .number b :: .number o :: .number n :: d =>
      (trailingData d).map (.fis acc w v b o n)
    | _ => none
  else if mnemonic = "FSET".toList then
    match fos with
    | [.window w, .value v, .number b, .number o] => some (.fset acc w v b o)
    | _ => none
  else if mnemonic = "FCLR".toList then
    match fos with
    | [.window w, .value v, .number b, .number o] => some (.fclr acc w v b o)
    | _ => none
  else if mnemonic = "FTST".toList then
    match fos with
    | [.window w, .value v, .number b, .number o] => some (.ftst acc w v b o)
    | _ => none
  else if mnemonic = "RRD".toList then
    match os with
    | [.window w, .number b] => some (.rrd w b)
    | _ => none
  else if mnemonic = "RWR".toList then
    match os with
    | .window w :: .number b :: d => (trailingData d).map (.rwr w b)
    | _ => none
  else if mnemonic = "RZERO".toList then
    match os with
    | [.window w, .number b] => some (.rzero w b)
    | _ => none
  else if mnemonic = "MASK".toList then
    match os with
    | [.window w, .number o, .number n] => some (.mask w o n)
    | _ => none
  else if mnemonic = "SHR".toList then
    match os with
    | .window w :: .value v :: .number c :: d => (trailingData d).map (.shr w v c)
    | _ => none
  else if mnemonic = "SHL".toList then
    match os with
    | .window w :: .value v :: .number c :: d => (trailingData d).map (.shl w v c)
    | _ => none
  else if mnemonic = "SHR1B".toList then (trailingData os).map .shr1b
  else if mnemonic = "SHL1B".toList then (trailingData os).map .shl1b
  else if mnemonic = "BRD".toList then
    match os with
    | [.number i] => some (.brd i)
    | _ => none
  else if mnemonic = "BWR".toList then
    match os with
    | .number i :: d => (trailingData d).map (.bwr i)
    | _ => none
  else if mnemonic = "CLR".toList then
    match os with
    | [] => some .clr
    | _ => none
  else if mnemonic = "NOP".toList then
    match os with
    | [] => some .nop
    | _ => none
  else none

/-- The line a text stands for. -/
def parseLine (text : List Char) : Option AsmLine :=
  let line := trimBlanks text
  let mnemonic := line.takeWhile fun c => !isBlank c
  match operandsOf (line.dropWhile fun c => !isBlank c) with
  | some os => lineOf mnemonic os
  | none => none

/-- From the text of a line to the command it stands for (R73, R74). -/
def assembleText (text : String) : Option Instr :=
  match parseLine text.toList with
  | some line => assemble line
  | none => none

end Sys2Proof.Machine
end

