-- ==== Sys2Proof/Safety.lean ====
section
/-! DEFINITION. What a legal field, a sound state and a successful run are, in the terms statements
use. -/

namespace Sys2Proof.Machine

/-- BFC is not halted (R26). -/
abbrev Running (s : State) : Prop := s.halted = false

/-- A window inside BUF (R41). -/
abbrev WindowLegal (nbuf wbase : Nat) (w : Width) : Prop := wbase + w.bytes ≤ nbuf

/-- A width, offset and window size that a mask is defined for (R8, R103, R163, R164). -/
abbrev MaskLegal (w : Width) (boff bwid : Nat) : Prop :=
  1 ≤ bwid ∧ bwid ≤ 64 ∧ boff + bwid ≤ 8 * w.bytes

/-- A legal field (R8, R163 to R166); its permission is apart. -/
abbrev FieldLegal (nbuf : Nat) (f : Field) : Prop :=
  MaskLegal f.w f.boff f.bwid ∧ f.bwid ≤ 8 * f.v.bytes ∧ WindowLegal nbuf f.wbase f.w

/-- The absolute bit `k` of BUF (R9). -/
def bufBit (s : State) (k : Nat) : Bool := (s.buf.readByte (k / 8)).getLsbD (k % 8)

/-- The absolute bit of BUF a field starts at (R122). -/
def fieldStart (f : Field) : Nat := 8 * f.wbase + f.boff

/-- The absolute bits of BUF that belong to a field (R122). -/
abbrev InField (f : Field) (k : Nat) : Prop := fieldStart f ≤ k ∧ k < fieldStart f + f.bwid

/-- The indices of the window's bytes (R41). -/
abbrev InWindow (wbase : Nat) (w : Width) (a : Nat) : Prop := wbase ≤ a ∧ a < wbase + w.bytes

/-- The indices of the bytes a field spans (R101). -/
abbrev InSpan (f : Field) (a : Nat) : Prop :=
  f.wbase + byteOffset f.boff ≤ a ∧ a < f.wbase + byteOffset f.boff + byteCount f.boff f.bwid

/-- The little-endian value of a window (R42). -/
def windowNumber (s : State) (wbase : Nat) (w : Width) : Nat := s.buf.readVal wbase w.bytes

/-- The number of a field in a window of value `x`, by R117. -/
def fieldNumber (f : Field) (x : Nat) : Nat := (x >>> f.boff) % 2 ^ f.bwid

/-! ### Sound states -/

/-- NBUF is in its range, and BUF is canonical and lies below NBUF (R5, R30, R40). -/
abbrev BufferOk (s : State) : Prop :=
  1 ≤ s.nbuf ∧ s.nbuf ≤ 256 ∧ Memory.wf s.buf = true ∧ ∀ c ∈ s.buf, c.1 < s.nbuf

/-- STATUS holds legal values only: its reserved bits are 0, and ECODE is at most 8, and 0 exactly
while HALT = 0 (R25, R27). -/
abbrev StatusOk (s : State) : Prop :=
  statusReserved s.status = 0 ∧ (statusEcode s.status).toNat ≤ 8 ∧
    (s.halted = false ↔ statusEcode s.status = 0)

/-- The value check that a decoded command breaks first, if any (R169). -/
def instrError (nbuf : Nat) : Instr → Option ErrCode
  | .nop => none
  | .frd f => fieldError nbuf f .read
  | .fwr f _ => fieldError nbuf f .write
  | .fwrc f _ => fieldError nbuf f .write
  | .fis f _ => fieldError nbuf f .read
  | .rrd w wbase => windowError nbuf wbase w
  | .rwr w wbase _ => windowError nbuf wbase w
  | .mask w boff bwid => maskError w boff bwid
  | .shr _ _ _ _ => none
  | .shl _ _ _ _ => none
  | .shr1b _ => none
  | .shl1b _ => none
  | .brd idx => indexError nbuf idx
  | .bwr idx _ => indexError nbuf idx
  | .clr => none
  | .reservedOpF _ => some .opcode

/-- The error a command word raises: it depends on the word and on NBUF alone (R169). -/
def wordError (nbuf : Nat) (c : Cmd) : Option ErrCode :=
  match decode c 0 with
  | .ok i => instrError nbuf i
  | .error _ => some .rsvd

/-- The error record: ERRCMD is 0 while running (R29), and while halted it holds a word that raises
the error ECODE names (R27, R29, R170). -/
def ErrorRecordOk (s : State) : Prop :=
  (s.halted = false → s.errcmd = 0) ∧
    (s.halted = true → ∃ e, statusEcode s.status = errNumber e ∧ wordError s.nbuf s.errcmd = some e)

/-! ### Runs -/

/-- `k` host actions end well: the halted state never counts as a successful end (R171). -/
def SuccessfulRun (k : Nat) (s t : State) : Prop :=
  Host.Core.run Sys2Proof.core k s = .next t ∧ Running t

end Sys2Proof.Machine
end

