-- ==== Sys2Proof/Certificates/Slice0/Obligations.lean ====
section
/-! DEFINITION. The statements for the provers. Each names the rules of spec/ it rests on. -/

open Sys2Proof Sys2Proof.Machine

/-! ### Decoding -/

/-- R61, R62, R69, R75: words written out from the field layout decode to the commands they stand
for: a field read, a register write, a mask, a multi-byte shift, a single-byte shift and a byte write;
and two reserved spellings are refused by name. NOP and CLR, whose words are their OP alone, stand in
the tests. The clause for the word 0x0080000F is the MODEL'S OWN CHOICE (log 6, DEDUCED): the model has
a command for the table's row of OP = 0xF, where R71's pseudocode answers Error(ERR_OPCODE). -/
def Obligations.SpecWordsDecode : Prop :=
  decode 0x0C082081 0 = .ok (.frd
    { acc := .rw
      w := .b4
      v := .b1
      wbase := 12
      boff := 8
      bwid := 8 }) ∧
  decode 0x5E000046 0xA1B2C3D4 = .ok (.rwr .b2 94 0xA1B2C3D4) ∧
  decode 0x000D1487 7 = .ok (.mask .b4 5 13) ∧
  decode 0x000031C8 9 = .ok (.shr .b8 .b2 12 9) ∧
  decode 0x0000000B 0x81 = .ok (.shl1b 0x81) ∧
  decode 0xC800000D 1 = .ok (.bwr 200 1) ∧
  decode 0x0080000F 0 = .ok (.reservedOpF 0x0080000) ∧
  decode 0x00880081 0 = .error .mustBeZeroSet ∧
  decode 0x000800B1 0 = .error .accessReserved

/-- R61, R62, R69: decoding the encoding of a well-formed command gives the command back, with every
operand at every value an encoding admits. -/
def Obligations.DecodeAfterEncode : Prop :=
  ∀ i : Instr, i.wf = true → decode (encodeCmd i) (encodeData i) = .ok i

/-- R61, R69, R71, R72: a decoded command is well formed, its encoding is the very word it was decoded
from, and it carries the DATA it came with. Only of a command that R72 gives no DATA to read (NOP, FRD,
RRD, MASK, BRD, CLR), and of the row of OP = 0xF, is the encoded DATA 0, which is the MODEL'S OWN CHOICE
(log 7, DEDUCED; for OP = 0xF log 6, DEDUCED). -/
def Obligations.EncodeAfterDecode : Prop :=
  ∀ (c : Cmd) (d : Word64) (i : Instr), decode c d = .ok i →
    i.wf = true ∧ encodeCmd i = c ∧
      encodeData i = if c.op ∈ [0x0, 0x1, 0x5, 0x7, 0xC, 0xE, 0xF] then 0 else d

/-- R162: while running, ERR_RSVD is raised exactly for a word with OP 0x0 to 0xE in which a
must-be-zero bit of its row is 1, or that is a field command with ACC = 0b11. -/
def Obligations.ReservedSpellingsRaiseRsvd : Prop :=
  ∀ (s : State) (c : Cmd) (d : Word64), Running s →
    (s.runCommand c d = .next (s.raiseError .rsvd c) ↔
      c.op ≠ 0xF ∧
        (c &&& rowMask c.op ≠ rowMatch c.op ∨
          (c.op ∈ [0x1, 0x2, 0x3, 0x4] ∧ c.acc = 3)))

/-- R161: any command word with OP = 0xF raises ERR_OPCODE, whatever its other bits hold. -/
def Obligations.ReservedOpcodeRaisesOpcode : Prop :=
  ∀ (s : State) (c : Cmd) (d : Word64), Running s → c.op = 0xF →
    s.runCommand c d = .next (s.raiseError .opcode c)

/-- The command the model has for the table's row of OP = 0xF (the model's constructor, log 6) completes
with that error action by itself, its word's 28 other bits kept in ERRCMD. -/
def Obligations.ReservedOpFCompletes : Prop :=
  ∀ (s : State) (rest : BitVec 28), Running s →
    exec (.reservedOpF rest) s =
      .next { s with status := withError s.status .opcode, errcmd := rest ++ 0xF#4 }

/-- R72: the DATA bits a command does not read have no effect, on its result or its error. -/
def Obligations.UnreadDataIsIgnored : Prop :=
  ∀ (s : State) (d e : Word64) (f : Field) (w v : Width) (n : Nat),
    (d.toNat % 2 ^ (8 * f.v.bytes) = e.toNat % 2 ^ (8 * f.v.bytes) →
      exec (.fwr f d) s = exec (.fwr f e) s ∧ exec (.fwrc f d) s = exec (.fwrc f e) s ∧
        exec (.fis f d) s = exec (.fis f e) s) ∧
    (d.toNat % 2 ^ (8 * w.bytes) = e.toNat % 2 ^ (8 * w.bytes) →
      exec (.rwr w n d) s = exec (.rwr w n e) s ∧ exec (.shr w v n d) s = exec (.shr w v n e) s) ∧
    (d.toNat % 2 ^ (8 * v.bytes) = e.toNat % 2 ^ (8 * v.bytes) →
      exec (.shl w v n d) s = exec (.shl w v n e) s) ∧
    (d.toNat % 256 = e.toNat % 256 →
      exec (.bwr n d) s = exec (.bwr n e) s ∧ exec (.shr1b d) s = exec (.shr1b e) s ∧
        exec (.shl1b d) s = exec (.shl1b e) s) ∧
    (∀ c : Cmd, c.op ∈ [0x0, 0x1, 0x5, 0x7, 0xC, 0xE] → s.runCommand c d = s.runCommand c e)

/-! ### The step, the halt and the error action -/

/-- R21, R169: when the next thing the host sends is a command that decodes to a well-formed
instruction, the step is that instruction's meaning with the command taken off the list. With nothing
to come, the step changes nothing (the model's choice, log 2). -/
def Obligations.StepRunsDecodedCommand : Prop :=
  ∀ (s : State) (c : Cmd) (d : Word64) (rest : List HostAction) (i : Instr),
    (s.inputs = .command c d :: rest → decode c d = .ok i → i.wf = true →
      step s = exec i { s with inputs := rest }) ∧
    (s.inputs = [] → step s = .next s)

/-- R171: while HALT = 1 every command is discarded, whatever its word, and so is every decoded
command: nothing changes but that the command has been sent. -/
def Obligations.HaltedDiscardsCommands : Prop :=
  ∀ s : State, s.halted = true →
    (∀ i : Instr, exec i s = .next s) ∧
    (∀ (c : Cmd) (d : Word64) (rest : List HostAction), s.inputs = .command c d :: rest →
      step s = .next { s with inputs := rest })

/-- R170: the error action sets HALT, puts the code in ECODE and the command word in ERRCMD, raises
ERR_O (R174) and leaves BUF, RESULT, FLAG, STATUS.TRIV and all else as they were; and errors are precise:
a command that a running BFC takes and that leaves it halted has done nothing but that action, with its
own word in ERRCMD. -/
def Obligations.ErrorActionIsPrecise : Prop :=
  (∀ (s : State) (e : ErrCode) (c : Cmd),
    let t := s.raiseError e c
    t.halted = true ∧ t.errO = true ∧ statusEcode t.status = errNumber e ∧ t.errcmd = c ∧
      t.buf = s.buf ∧ t.result = s.result ∧ t.flag = s.flag ∧
      statusTriv t.status = statusTriv s.status ∧
      statusReserved t.status = statusReserved s.status ∧
      t.nbuf = s.nbuf ∧ t.inputs = s.inputs ∧ t.choices = s.choices) ∧
  (∀ (s t : State) (c : Cmd) (d : Word64), Running s → s.runCommand c d = .next t →
    t.halted = true → ∃ e, t = s.raiseError e c)

/-- R28: writing TRIV writes that bit of STATUS and no other. -/
def Obligations.TrivWriteTouchesTrivOnly : Prop :=
  ∀ (st : BitVec 32) (t : Bool),
    statusTriv (withTriv st t) = t ∧ statusHalt (withTriv st t) = statusHalt st ∧
      statusEcode (withTriv st t) = statusEcode st ∧
      statusReserved (withTriv st t) = statusReserved st

/-- R163 to R167 and, for their order, R169, as far as they concern the field commands: each clause is
one check, met only when every earlier one has passed; the last says when none applies. MASK's part of
R163 and R164 is in MaskResult, that of RRD and RWR in R166 in RrdResult and RwrResult. -/
def Obligations.FieldCommandErrors : Prop :=
  ∀ (s : State) (f : Field) (d : Word64) (i : Instr), Running s →
    (i = .frd f ∨ i = .fis f d ∨ i = .fwr f d ∨ i = .fwrc f d) →
    let reads : Bool := decide (i = .frd f ∨ i = .fis f d)
    let raised := fun e => Host.Outcome.next (φ := Fault) (ρ := Refusal) (s.raiseError e (encodeCmd i))
    let shaped := 1 ≤ f.bwid ∧ f.bwid ≤ 64
    let fits := f.boff + f.bwid ≤ 8 * f.w.bytes
    let narrow := f.bwid ≤ 8 * f.v.bytes
    let placed := f.wbase + f.w.bytes ≤ s.nbuf
    let forbidden := (reads = true ∧ f.acc = .wo) ∨ (reads = false ∧ f.acc = .ro)
    (¬shaped → exec i s = raised .width) ∧
    (shaped → ¬fits → exec i s = raised .range) ∧
    (shaped → fits → ¬narrow → exec i s = raised .value) ∧
    (shaped → fits → narrow → ¬placed → exec i s = raised .window) ∧
    (shaped → fits → narrow → placed → forbidden → exec i s = raised .access) ∧
    (shaped → fits → narrow → placed → ¬forbidden → ∃ t, exec i s = .next t ∧ Running t)

/-- R171, R172, R173: a halted BFC leaves the halt, or changes its error record, its outputs or BUF,
only by a reset. -/
def Obligations.OnlyResetEndsTheHalt : Prop :=
  ∀ s t : State, s.halted = true → step s = .next t →
    t.outputs = s.outputs ∧ t.buf = s.buf ∨
      (∃ mode rest, s.inputs = .reset mode :: rest) ∨
      (∃ mode c d rest, s.inputs = .resetInFlight mode c d :: rest)

/-- R50: the host's actions take effect one at a time in the order they are sent: a step takes the first
of them off the list, whatever it is. That a step never stops is the model's own (log 11, DEDUCED), and
so are the list and the step that changes nothing and takes no action when none is left (log 2, DESIGN
CHOICE). -/
def Obligations.ActionsAreTakenInOrder : Prop :=
  ∀ s : State, ∃ t, step s = .next t ∧ t.inputs = s.inputs.tail

/-- R171, R173: in a run of commands alone that ends unhalted, no state on the way was halted. -/
def Obligations.SuccessfulRunNeverHalted : Prop :=
  ∀ (k : Nat) (s t : State), (∀ a ∈ s.inputs, ∃ c d, a = .command c d) → SuccessfulRun k s t →
    ∀ j, j ≤ k → ∃ u, Host.Core.run Sys2Proof.core j s = .next u ∧ Running u

/-! ### The shift engine -/

/-- R80, R81: the single-byte shifts and their carries. -/
def Obligations.SingleByteShifts : Prop :=
  ∀ b : Byte,
    (shr1 b).1.toNat = b.toNat / 2 ∧ ((shr1 b).2 = true ↔ b.toNat % 2 = 1) ∧
      (shl1 b).1.toNat = b.toNat * 2 % 256 ∧ ((shl1 b).2 = true ↔ 128 ≤ b.toNat)

/-- R84: the multi-byte right shift is the right shift of the little-endian value, at the same
length. -/
def Obligations.ShiftRightIsValueShift : Prop :=
  ∀ (b : List Byte) (n : Nat), 1 ≤ b.length →
    (shiftRight b n).length = b.length ∧ val (shiftRight b n) = val b >>> n

/-- R85: the multi-byte left shift is the left shift of the little-endian value, modulo 2^(8L), at the
same length. -/
def Obligations.ShiftLeftIsValueShift : Prop :=
  ∀ (b : List Byte) (n : Nat), 1 ≤ b.length →
    (shiftLeft b n).length = b.length ∧
      val (shiftLeft b n) = (val b <<< n) % 2 ^ (8 * b.length)

/-- R86: `resize` keeps the low bytes or extends with zero bytes, and its value is the old one modulo
2^(8M). -/
def Obligations.ResizeTruncatesOrExtends : Prop :=
  ∀ (b : List Byte) (m : Nat),
    (resize m b).length = m ∧ val (resize m b) = val b % 2 ^ (8 * m) ∧
      (m ≤ b.length → resize m b = b.take m) ∧
      (b.length ≤ m → resize m b = b ++ List.replicate (m - b.length) 0)

/-- R87: SHR1B completes, with the shifted byte in RESULT, its old bit 0 in FLAG, and nothing else
changed. -/
def Obligations.Shr1bResult : Prop :=
  ∀ (s : State) (d : Word64), Running s →
    exec (.shr1b d) s =
      .next { s with result := BitVec.ofNat 64 (d.toNat % 256 / 2), flag := d.getLsbD 0 }

/-- R88: SHL1B completes, with the shifted byte in RESULT, its old bit 7 in FLAG, and nothing else
changed. -/
def Obligations.Shl1bResult : Prop :=
  ∀ (s : State) (d : Word64), Running s →
    exec (.shl1b d) s =
      .next { s with result := BitVec.ofNat 64 (d.toNat * 2 % 256), flag := d.getLsbD 7 }

/-- R89: SHR completes for every W, V and count, and writes RESULT alone. -/
def Obligations.ShrResult : Prop :=
  ∀ (s : State) (w v : Width) (cnt : Nat) (d : Word64), Running s →
    exec (.shr w v cnt d) s =
      .next { s with
        result := BitVec.ofNat 64 ((d.toNat % 2 ^ (8 * w.bytes)) >>> cnt % 2 ^ (8 * v.bytes)) }

/-- R90: SHL completes for every W, V and count, and writes RESULT alone. -/
def Obligations.ShlResult : Prop :=
  ∀ (s : State) (w v : Width) (cnt : Nat) (d : Word64), Running s →
    exec (.shl w v cnt d) s =
      .next { s with
        result := BitVec.ofNat 64 ((d.toNat % 2 ^ (8 * v.bytes)) <<< cnt % 2 ^ (8 * w.bytes)) }

/-! ### Masks -/

/-- R104: the value of a mask. -/
def Obligations.MaskValue : Prop :=
  ∀ w boff bwid : Nat, 1 ≤ bwid → boff + bwid ≤ 8 * w →
    val (mask w boff bwid) = ((1 <<< bwid) - 1) <<< boff

/-- R103, R105: a mask has W bytes; exactly the BWID bits from BOFF on are set; a byte outside the
spanned bytes of R101 is 0. -/
def Obligations.MaskBits : Prop :=
  ∀ w boff bwid : Nat, 1 ≤ bwid → boff + bwid ≤ 8 * w →
    (mask w boff bwid).length = w ∧
    (∀ k, (val (mask w boff bwid)).testBit k = decide (boff ≤ k ∧ k < boff + bwid)) ∧
    ((List.range (8 * w)).countP fun k => (val (mask w boff bwid)).testBit k) = bwid ∧
    (∀ j, j < w → (j < byteOffset boff ∨ byteOffset boff + byteCount boff bwid ≤ j) →
      (mask w boff bwid)[j]? = some 0)

/-- R106: MASK completes on every legal width and offset, writing RESULT alone; otherwise it raises
ERR_WIDTH, or else ERR_RANGE. -/
def Obligations.MaskResult : Prop :=
  ∀ (s : State) (w : Width) (boff bwid : Nat), Running s →
    (MaskLegal w boff bwid →
      exec (.mask w boff bwid) s =
        .next { s with result := BitVec.ofNat 64 (((1 <<< bwid) - 1) <<< boff) }) ∧
    (bwid = 0 ∨ 64 < bwid →
      exec (.mask w boff bwid) s = .next (s.raiseError .width (encodeCmd (.mask w boff bwid)))) ∧
    (1 ≤ bwid → bwid ≤ 64 → 8 * w.bytes < boff + bwid →
      exec (.mask w boff bwid) s = .next (s.raiseError .range (encodeCmd (.mask w boff bwid))))

/-! ### Fields -/

/-- R116: on every trivial legal field the two paths read the same value and leave the same window, and
the mask is 0xFF on the field's bytes and 0 elsewhere. -/
def Obligations.TrivialPathIsMaskedPath : Prop :=
  ∀ (f : Field) (win : List Byte) (value : Nat), MaskLegal f.w f.boff f.bwid →
    f.bwid ≤ 8 * f.v.bytes → fieldTrivial f = true → win.length = f.w.bytes →
    value < 2 ^ (8 * f.v.bytes) →
    trivRead win f.boff f.bwid = maskedRead win f.w.bytes f.boff f.bwid f.v.bytes ∧
    trivWrite win f.boff f.bwid f.v.bytes value =
      maskedWrite win f.w.bytes f.boff f.bwid f.v.bytes value ∧
    mask f.w.bytes f.boff f.bwid =
      List.replicate (f.boff / 8) 0 ++ List.replicate (f.bwid / 8) 0xFF ++
        List.replicate (f.w.bytes - f.boff / 8 - f.bwid / 8) 0

/-- R117: the field value law, for the path the field takes and for the masked path of any legal field.
`x` is the window's value, `m` the mask's. -/
def Obligations.FieldValueLaw : Prop :=
  ∀ (f : Field) (win : List Byte) (value : Nat), MaskLegal f.w f.boff f.bwid →
    f.bwid ≤ 8 * f.v.bytes → win.length = f.w.bytes → value < 2 ^ (8 * f.v.bytes) →
    let x := val win
    let m := ((1 <<< f.bwid) - 1) <<< f.boff
    let after := (x &&& (2 ^ (8 * f.w.bytes) - 1 - m)) ||| ((value <<< f.boff) &&& m)
    fieldRead f win = (x >>> f.boff) % 2 ^ f.bwid ∧
    maskedRead win f.w.bytes f.boff f.bwid f.v.bytes = (x >>> f.boff) % 2 ^ f.bwid ∧
    val (fieldWrite f win value) = after ∧
    val (maskedWrite win f.w.bytes f.boff f.bwid f.v.bytes value) = after ∧
    (fieldWrite f win value).length = f.w.bytes

/-- R118, R124: FRD of a legal readable field completes: RESULT is the field's bits, never
sign-extended, TRIV is the trivial predicate, and nothing else changes. -/
def Obligations.FrdResult : Prop :=
  ∀ (s : State) (f : Field), Running s → FieldLegal s.nbuf f → f.acc ≠ .wo →
    exec (.frd f) s =
      .next { s with
        result := BitVec.ofNat 64 (fieldNumber f (windowNumber s f.wbase f.w))
        status := withTriv s.status (decide (f.boff % 8 = 0 ∧ f.bwid % 8 = 0)) }

/-- R119, R120, R122: FWR and FWRC of a legal writable field complete alike: exactly the field's bits of
BUF take the low BWID bits of DATA, every other bit of BUF is as before, TRIV is the trivial predicate,
and no other register changes. The field's bits start at `fieldStart f`, 8 WBASE + BOFF. -/
def Obligations.FwrAndFwrcResult : Prop :=
  ∀ (s : State) (f : Field) (d : Word64), Running s → BufferOk s → FieldLegal s.nbuf f →
    f.acc ≠ .ro →
    ∃ m : Memory,
      (∀ i, i = .fwr f d ∨ i = .fwrc f d →
        exec i s =
          .next { s with
            buf := m
            status := withTriv s.status (decide (f.boff % 8 = 0 ∧ f.bwid % 8 = 0)) }) ∧
      (∀ k, InField f k → bufBit { s with buf := m } k = d.getLsbD (k - fieldStart f)) ∧
      (∀ k, ¬InField f k → bufBit { s with buf := m } k = bufBit s k) ∧
      (∀ a, ¬InWindow f.wbase f.w a → Memory.readByte m a = s.buf.readByte a)

/-- R121: FIS of a legal readable field completes: FLAG says whether the field equals the low V bytes of
DATA, TRIV is the trivial predicate, RESULT and everything else are as before. -/
def Obligations.FisResult : Prop :=
  ∀ (s : State) (f : Field) (d : Word64), Running s → FieldLegal s.nbuf f → f.acc ≠ .wo →
    exec (.fis f d) s =
      .next { s with
        flag := decide
          (fieldNumber f (windowNumber s f.wbase f.w) = d.toNat % 2 ^ (8 * f.v.bytes))
        status := withTriv s.status (decide (f.boff % 8 = 0 ∧ f.bwid % 8 = 0)) }

/-- R123: after FWR or FWRC of a value to a legal field with ACC = RW, and for as long as the bytes the
field spans are not written, FRD of the field gives the value modulo 2^BWID, and FIS with that
comparand sets FLAG. `u` is any later running state of the same BFC in which those bytes are the
same. -/
def Obligations.FieldRoundTrip : Prop :=
  ∀ (s t u : State) (f : Field) (d e : Word64) (i : Instr), Running s → BufferOk s →
    FieldLegal s.nbuf f → f.acc = .rw → (i = .fwr f d ∨ i = .fwrc f d) → exec i s = .next t →
    Running u → u.nbuf = t.nbuf → (∀ a, InSpan f a → u.buf.readByte a = t.buf.readByte a) →
    e.toNat % 2 ^ (8 * f.v.bytes) = d.toNat % 2 ^ (8 * f.v.bytes) % 2 ^ f.bwid →
    (∃ r, exec (.frd f) u = .next r ∧
      r.result.toNat = d.toNat % 2 ^ (8 * f.v.bytes) % 2 ^ f.bwid) ∧
    (∃ r, exec (.fis f e) u = .next r ∧ r.flag = true)

/-- R122: a write to one field leaves the value FRD gives for every legal field with disjoint bits of
BUF, whatever their windows; every bit of BUF outside the written field, so every byte outside its
window, keeps its value. -/
def Obligations.DisjointFieldsDoNotInterfere : Prop :=
  ∀ (s t : State) (a b : Field) (d : Word64) (i : Instr), Running s → BufferOk s →
    FieldLegal s.nbuf a → FieldLegal s.nbuf b → a.acc ≠ .ro → b.acc ≠ .wo →
    (fieldStart a + a.bwid ≤ fieldStart b ∨ fieldStart b + b.bwid ≤ fieldStart a) →
    (i = .fwr a d ∨ i = .fwrc a d) → exec i s = .next t →
    (∃ r q, exec (.frd b) s = .next r ∧ exec (.frd b) t = .next q ∧ q.result = r.result) ∧
      (∀ k, ¬InField a k → bufBit t k = bufBit s k) ∧
      (∀ n, ¬InWindow a.wbase a.w n → t.buf.readByte n = s.buf.readByte n)

/-! ### Registers, bytes and the buffer -/

/-- R140, R42: RRD of a window inside BUF completes: bit `k` of RESULT is bit `k mod 8` of window byte
`k div 8`, the bits above the window are 0, and nothing else changes. A window past NBUF raises
ERR_WINDOW. -/
def Obligations.RrdResult : Prop :=
  ∀ (s : State) (w : Width) (wbase : Nat), Running s →
    (WindowLegal s.nbuf wbase w →
      ∃ r : Word64, exec (.rrd w wbase) s = .next { s with result := r } ∧
        ∀ k, r.getLsbD k = (decide (k < 8 * w.bytes) && bufBit s (8 * wbase + k))) ∧
    (¬WindowLegal s.nbuf wbase w →
      exec (.rrd w wbase) s = .next (s.raiseError .window (encodeCmd (.rrd w wbase))))

/-- R141, R43: RWR of a window inside BUF completes: window byte `j` is DATA[8j+7:8j], every other byte
of BUF is as before, and no other register changes. A window past NBUF raises ERR_WINDOW. -/
def Obligations.RwrResult : Prop :=
  ∀ (s : State) (w : Width) (wbase : Nat) (d : Word64), Running s → BufferOk s →
    (WindowLegal s.nbuf wbase w →
      ∃ m : Memory, exec (.rwr w wbase d) s = .next { s with buf := m } ∧
        (∀ j, j < w.bytes → Memory.readByte m (wbase + j) = d.extractLsb' (8 * j) 8) ∧
        (∀ a, ¬InWindow wbase w a → Memory.readByte m a = s.buf.readByte a)) ∧
    (¬WindowLegal s.nbuf wbase w →
      exec (.rwr w wbase d) s = .next (s.raiseError .window (encodeCmd (.rwr w wbase d))))

/-- R143, R168: BRD of an index below NBUF completes, zero-extending the byte into RESULT and changing
nothing else; an index at or past NBUF raises ERR_INDEX. -/
def Obligations.BrdResult : Prop :=
  ∀ (s : State) (idx : Nat), Running s →
    (idx < s.nbuf →
      exec (.brd idx) s = .next { s with result := (s.buf.readByte idx).zeroExtend 64 }) ∧
    (s.nbuf ≤ idx → exec (.brd idx) s = .next (s.raiseError .index (encodeCmd (.brd idx))))

/-- R144, R168: BWR of an index below NBUF completes, storing DATA[7:0] there and changing nothing
else; an index at or past NBUF raises ERR_INDEX. -/
def Obligations.BwrResult : Prop :=
  ∀ (s : State) (idx : Nat) (d : Word64), Running s → BufferOk s →
    (idx < s.nbuf →
      ∃ m : Memory, exec (.bwr idx d) s = .next { s with buf := m } ∧
        (∀ a, Memory.readByte m a = if a = idx then d.extractLsb' 0 8 else s.buf.readByte a)) ∧
    (s.nbuf ≤ idx → exec (.bwr idx d) s = .next (s.raiseError .index (encodeCmd (.bwr idx d))))

/-- R145: CLR completes, every byte of BUF reads 0 afterwards, and no register changes. In a sound
state that is BUF with nothing listed, since an unlisted byte reads 0 (log 5). -/
def Obligations.ClrResult : Prop :=
  ∀ s : State, Running s → BufferOk s → exec .clr s = .next { s with buf := [] }

/-- R146: NOP completes and changes nothing. -/
def Obligations.NopResult : Prop :=
  ∀ s : State, Running s → exec .nop s = .next s

/-- R44: reads of different widths agree. A narrower RRD inside the window of a wider one gives the
wider result's bytes `b - a` and up, and so does BRD, as long as those bytes have not been
written. -/
def Obligations.OverlappingReadsAgree : Prop :=
  ∀ (s t : State) (w v : Width) (a b : Nat), Running s → Running t → s.nbuf = t.nbuf →
    WindowLegal s.nbuf a w → a ≤ b → b + v.bytes ≤ a + w.bytes →
    (∀ k, InWindow b v k → t.buf.readByte k = s.buf.readByte k) →
    ∃ p q r, exec (.rrd w a) s = .next p ∧ exec (.rrd v b) t = .next q ∧
      exec (.brd b) t = .next r ∧
      q.result.toNat = p.result.toNat >>> (8 * (b - a)) % 2 ^ (8 * v.bytes) ∧
      r.result.toNat = p.result.toNat >>> (8 * (b - a)) % 256

/-- R53: a write through one window leaves what every disjoint window and every byte index outside it
reads. -/
def Obligations.DisjointWindowsDoNotInterfere : Prop :=
  ∀ (s t : State) (w v : Width) (a b idx : Nat) (d : Word64), Running s → BufferOk s →
    exec (.rwr w a d) s = .next t → WindowLegal s.nbuf a w → WindowLegal s.nbuf b v →
    (a + w.bytes ≤ b ∨ b + v.bytes ≤ a) → idx < s.nbuf → ¬InWindow a w idx →
    ∃ p q x y, exec (.rrd v b) s = .next p ∧ exec (.rrd v b) t = .next q ∧ q.result = p.result ∧
      exec (.brd idx) s = .next x ∧ exec (.brd idx) t = .next y ∧ y.result = x.result

/-! ### What commands leave alone -/

/-- R23, R24, R28, R46: RESULT, FLAG, STATUS.TRIV and BUF change only by the commands that the spec
names for each. No command touches the reserved bits of STATUS, NBUF, the host's list or the count of
choices. -/
def Obligations.CommandsWriteOnlyTheirRegisters : Prop :=
  ∀ (i : Instr) (s t : State), exec i s = .next t →
    (t.result ≠ s.result →
      (encodeCmd i).op ∈ [0x1, 0x5, 0x7, 0x8, 0x9, 0xA, 0xB, 0xC]) ∧
    (t.flag ≠ s.flag → (encodeCmd i).op ∈ [0x4, 0xA, 0xB]) ∧
    (statusTriv t.status ≠ statusTriv s.status →
      (encodeCmd i).op ∈ [0x1, 0x2, 0x3, 0x4]) ∧
    (t.buf ≠ s.buf → (encodeCmd i).op ∈ [0x2, 0x3, 0x6, 0xD, 0xE]) ∧
    statusReserved t.status = statusReserved s.status ∧ t.nbuf = s.nbuf ∧ t.inputs = s.inputs ∧
    t.choices = s.choices

/-- R46: no command changes a byte of BUF outside the bytes the spec has it write: the window of FWR,
FWRC and RWR, the index of BWR, all of BUF for CLR, nothing for any other. -/
def Obligations.BytesOutsideAreKept : Prop :=
  ∀ (i : Instr) (s t : State) (a : Nat), BufferOk s → exec i s = .next t →
    (∀ f d, i = .fwr f d ∨ i = .fwrc f d → ¬InWindow f.wbase f.w a) →
    (∀ w b d, i = .rwr w b d → ¬InWindow b w a) → (∀ n d, i = .bwr n d → a ≠ n) →
    (i = .clr → s.nbuf ≤ a) →
    t.buf.readByte a = s.buf.readByte a

/-! ### Reset -/

/-- R180, R183, R184: State.reset is the state a power-on ZERO reset gives at NBUF = 96 (log 1, log 3),
whatever BUF0 was: no error, every register 0, every byte 0. -/
def Obligations.ResetStateIsZeroReset : Prop :=
  (∀ buf0 : List Byte, State.powerOnReset 96 buf0 .zero = State.reset) ∧
    (∀ k, Memory.readByte State.reset.buf k = 0) ∧ State.reset.result = 0 ∧
    State.reset.flag = false ∧ State.reset.status = 0 ∧ State.reset.errcmd = 0 ∧
    State.reset.errO = false ∧ Running State.reset

/-- R180, R181, R183: a reset the host asserts between commands: the registers and the record are 0 and
HALT is clear; ZERO leaves every byte of BUF 0, and NOINIT leaves BUF as it was. -/
def Obligations.ResetAction : Prop :=
  ∀ (s : State) (mode : ResetMode) (rest : List HostAction), BufferOk s →
    s.inputs = .reset mode :: rest →
    ∃ m : Memory,
      step s = .next { s with
        buf := m
        result := 0
        flag := false
        status := 0
        errcmd := 0
        inputs := rest } ∧
      (mode = .zero → ∀ k, Memory.readByte m k = 0) ∧ (mode = .noinit → m = s.buf)

/-- R182: after a power-on NOINIT reset BUF holds BUF0, for every NBUF and every BUF0, with every
register 0. -/
def Obligations.PowerOnNoinitHoldsBuf0 : Prop :=
  ∀ (nbuf : Nat) (buf0 : List Byte), buf0.length = nbuf →
    let s := State.powerOnReset nbuf buf0 .noinit
    (∀ k, k < nbuf → some (s.buf.readByte k) = buf0[k]?) ∧ s.nbuf = nbuf ∧ s.result = 0 ∧
      s.flag = false ∧ s.status = 0 ∧ s.errcmd = 0

/-- R185: a reset asserted while a command is in flight gives the reset after the completed command, or
the reset as if the command had not been sent, in every register and in BUF; for ZERO mode the two are
the same. Which of the two is left open (log 4), and the statement holds for either. -/
def Obligations.ResetInFlightHasTwoOutcomes : Prop :=
  ∀ (s u : State) (mode : ResetMode) (c : Cmd) (d : Word64) (rest : List HostAction), BufferOk s →
    s.inputs = .resetInFlight mode c d :: rest →
    State.runCommand { s with inputs := rest } c d = .next u →
    ∃ t, step s = .next t ∧ t.inputs = rest ∧ t.nbuf = s.nbuf ∧
      (t.outputs = (u.applyReset mode).outputs ∧ t.buf = (u.applyReset mode).buf ∨
        t.outputs = (s.applyReset mode).outputs ∧ t.buf = (s.applyReset mode).buf) ∧
      (mode = .zero →
        (u.applyReset mode).outputs = (s.applyReset mode).outputs ∧
          (u.applyReset mode).buf = (s.applyReset mode).buf)

/-! ### Invariants -/

/-- R5, R30, R40: every step keeps BUF canonical and below NBUF, and NBUF in its range and as it
was. -/
def Obligations.StepKeepsBufferOk : Prop :=
  ∀ s t : State, BufferOk s → step s = .next t → BufferOk t ∧ t.nbuf = s.nbuf

/-- R25, R27: every step keeps STATUS legal: its reserved bits 0, ECODE at most 8, and 0 exactly while
HALT = 0. -/
def Obligations.StepKeepsStatusOk : Prop :=
  ∀ s t : State, StatusOk s → step s = .next t → StatusOk t

/-- R27, R29, R173: every step keeps the error record: ERRCMD is 0 while running, and while halted it is
a command word that raises the very error ECODE names. -/
def Obligations.StepKeepsErrorRecord : Prop :=
  ∀ s t : State, ErrorRecordOk s → step s = .next t → ErrorRecordOk t

/-- The invariants hold at State.reset (R180, R184). -/
def Obligations.ResetMeetsInvariants : Prop :=
  BufferOk State.reset ∧ StatusOk State.reset ∧ ErrorRecordOk State.reset

/-- R5, R182, R184: the invariants hold after a power-on reset of either mode, for every NBUF of the
parameter's range and every BUF0. -/
def Obligations.PowerOnMeetsInvariants : Prop :=
  ∀ (nbuf : Nat) (buf0 : List Byte) (mode : ResetMode), 1 ≤ nbuf → nbuf ≤ 256 →
    BufferOk (State.powerOnReset nbuf buf0 mode) ∧ StatusOk (State.powerOnReset nbuf buf0 mode) ∧
      ErrorRecordOk (State.powerOnReset nbuf buf0 mode)

/-! ### The assembler -/

/-- R73, R74, for every assembler line: a line whose operands all fit their fields (a base or index of
at most 255, an offset or count of at most 63, a width of at most 127, a DATA operand of 64 bits)
assembles to the command it names, an omitted `acc` being rw and an omitted DATA 0; any other line is
refused. What is accepted is well formed, and its words decode back to it. The model also refuses a DATA
operand of more than 64 bits by its own choice of reading "encodable" (log 13). -/
def Obligations.AssembledLinesDecodeBack : Prop :=
  (∀ (line : AsmLine) (i : Instr), assemble line = some i →
    i.wf = true ∧ decode (encodeCmd i) (encodeData i) = .ok i) ∧
  (∀ (acc : Option Access) (w v : Width) (base off wid : Nat) (data : Option Nat),
    let f : Field :=
      { acc := acc.getD .rw
        w := w
        v := v
        wbase := base
        boff := off
        bwid := wid }
    let d : Word64 := BitVec.ofNat 64 (data.getD 0)
    let dataFits : Bool := decide (data.getD 0 < 2 ^ 64)
    let baseOk : Bool := decide (base ≤ 255)
    let offOk : Bool := decide (off ≤ 63)
    let widOk : Bool := decide (wid ≤ 127)
    let names := fun (ok : Bool) (i : Instr) => if ok then some i else none
    assemble (.frd acc w v base off wid) = names (baseOk && offOk && widOk) (.frd f) ∧
    assemble (.fwr acc w v base off wid data) =
      names (baseOk && offOk && widOk && dataFits) (.fwr f d) ∧
    assemble (.fwrc acc w v base off wid data) =
      names (baseOk && offOk && widOk && dataFits) (.fwrc f d) ∧
    assemble (.fis acc w v base off wid data) =
      names (baseOk && offOk && widOk && dataFits) (.fis f d) ∧
    assemble (.rrd w base) = names baseOk (.rrd w base) ∧
    assemble (.rwr w base data) = names (baseOk && dataFits) (.rwr w base d) ∧
    assemble (.mask w off wid) = names (offOk && widOk) (.mask w off wid) ∧
    assemble (.shr w v off data) = names (offOk && dataFits) (.shr w v off d) ∧
    assemble (.shl w v off data) = names (offOk && dataFits) (.shl w v off d) ∧
    assemble (.shr1b data) = names dataFits (.shr1b d) ∧
    assemble (.shl1b data) = names dataFits (.shl1b d) ∧
    assemble (.brd base) = names baseOk (.brd base) ∧
    assemble (.bwr base data) = names (baseOk && dataFits) (.bwr base d) ∧
    assemble .clr = some .clr ∧
    assemble .nop = some .nop ∧
    assemble (.fset acc w v base off) =
      names (baseOk && offOk) (.fwr { f with bwid := 1 } 1) ∧
    assemble (.fclr acc w v base off) =
      names (baseOk && offOk) (.fwr { f with bwid := 1 } 0) ∧
    assemble (.ftst acc w v base off) =
      names (baseOk && offOk) (.fis { f with bwid := 1 } 1) ∧
    assemble (.rzero w base) = names baseOk (.rwr w base 0))

/-- R61, R62, R73: the words a line assembles to, written from the field layout: OP, and each operand of
the line at its place; every field the line does not name is 0, and DATA is 0 where the line gives
none. The pseudo-instructions' words are those of their expansions (R74). -/
def Obligations.AssembledWordsFollowTheLayout : Prop :=
  ∀ (acc : Option Access) (w v : Width) (base off wid n : Nat), base ≤ 255 → off ≤ 63 → wid ≤ 127 →
    n < 2 ^ 64 →
    let sent := fun (line : AsmLine) => (assemble line).map encode
    let word := fun (bits data : Nat) => some (BitVec.ofNat 32 bits, BitVec.ofNat 64 data)
    let field := (acc.getD .rw).code * 2 ^ 4 + w.code * 2 ^ 6 + v.code * 2 ^ 8 + off * 2 ^ 10 +
      wid * 2 ^ 16 + base * 2 ^ 24
    let oneBit := (acc.getD .rw).code * 2 ^ 4 + w.code * 2 ^ 6 + v.code * 2 ^ 8 + off * 2 ^ 10 +
      1 * 2 ^ 16 + base * 2 ^ 24
    let window := w.code * 2 ^ 6 + base * 2 ^ 24
    let shift := w.code * 2 ^ 6 + v.code * 2 ^ 8 + off * 2 ^ 10
    sent (.frd acc w v base off wid) = word (0x1 + field) 0 ∧
    sent (.fwr acc w v base off wid (some n)) = word (0x2 + field) n ∧
    sent (.fwrc acc w v base off wid (some n)) = word (0x3 + field) n ∧
    sent (.fis acc w v base off wid (some n)) = word (0x4 + field) n ∧
    sent (.fwr acc w v base off wid none) = word (0x2 + field) 0 ∧
    sent (.fset acc w v base off) = word (0x2 + oneBit) 1 ∧
    sent (.fclr acc w v base off) = word (0x2 + oneBit) 0 ∧
    sent (.ftst acc w v base off) = word (0x4 + oneBit) 1 ∧
    sent (.rrd w base) = word (0x5 + window) 0 ∧
    sent (.rwr w base (some n)) = word (0x6 + window) n ∧
    sent (.rzero w base) = word (0x6 + window) 0 ∧
    sent (.mask w off wid) = word (0x7 + w.code * 2 ^ 6 + off * 2 ^ 10 + wid * 2 ^ 16) 0 ∧
    sent (.shr w v off (some n)) = word (0x8 + shift) n ∧
    sent (.shl w v off (some n)) = word (0x9 + shift) n ∧
    sent (.shr1b (some n)) = word 0xA n ∧
    sent (.shl1b (some n)) = word 0xB n ∧
    sent (.brd base) = word (0xC + base * 2 ^ 24) 0 ∧
    sent (.bwr base (some n)) = word (0xD + base * 2 ^ 24) n ∧
    sent .clr = word 0xE 0 ∧
    sent .nop = word 0x0 0

/-- R74: FSET and FCLR set and clear a one-bit field and leave every other bit of BUF, FTST answers the
bit in FLAG, and RZERO zeroes a whole register and leaves every other byte. -/
def Obligations.PseudoInstructionsMean : Prop :=
  ∀ (s : State) (acc : Option Access) (w v : Width) (base bit : Nat), Running s → BufferOk s →
    WindowLegal s.nbuf base w → bit < 8 * w.bytes →
    (acc ≠ some .ro → ∃ i t, assemble (.fset acc w v base bit) = some i ∧ exec i s = .next t ∧
      Running t ∧ ∀ k, bufBit t k = if k = 8 * base + bit then true else bufBit s k) ∧
    (acc ≠ some .ro → ∃ i t, assemble (.fclr acc w v base bit) = some i ∧ exec i s = .next t ∧
      Running t ∧ ∀ k, bufBit t k = if k = 8 * base + bit then false else bufBit s k) ∧
    (acc ≠ some .wo → ∃ i t, assemble (.ftst acc w v base bit) = some i ∧ exec i s = .next t ∧
      Running t ∧ t.flag = bufBit s (8 * base + bit) ∧ t.buf = s.buf) ∧
    (∃ i t, assemble (.rzero w base) = some i ∧ exec i s = .next t ∧ Running t ∧
      ∀ a, t.buf.readByte a = if InWindow base w a then 0 else s.buf.readByte a)
end

