-- ==== Sys2Proof/Laws/Assembler.lean ====
section
/-! SUPPORT. What the assembler can answer (R73). -/

namespace Sys2Proof.Machine

@[simp] theorem asmData_none : asmData none = some 0 := rfl

@[simp] theorem asmData_some (n : Nat) :
    asmData (some n) = if n < 2 ^ 64 then some (BitVec.ofNat 64 n) else none := rfl

/-- An omitted or given DATA operand in one form. -/
theorem asmData_eq (data : Option Nat) :
    asmData data = if data.getD 0 < 2 ^ 64 then some (BitVec.ofNat 64 (data.getD 0)) else none := by
  cases data <;> rfl

/-- A line is accepted exactly when its expansion names a command whose operands fit. -/
theorem assemble_eq_some_iff (line : AsmLine) (i : Instr) :
    assemble line = some i ↔ asmCommand (expandPseudo line) = some i ∧ i.wf = true := by
  cases h : asmCommand (expandPseudo line) with
  | none => simp [assemble, h]
  | some j =>
    cases hj : j.wf with
    | true =>
      simp only [assemble, h, hj, if_true, Option.some.injEq]
      exact ⟨fun e => ⟨e, e ▸ hj⟩, And.left⟩
    | false =>
      simp only [assemble, h, hj, Option.some.injEq]
      exact ⟨fun e => by simp at e, fun ⟨e, hi⟩ => by simp [e ▸ hj] at hi⟩

end Sys2Proof.Machine
end

