-- ==== Sys2Proof/Laws/Bytes.lean ====
section
/-! SUPPORT. Byte sequences and their values (R10). -/

namespace Sys2Proof.Machine

@[simp] theorem val_nil : val [] = 0 := rfl

@[simp] theorem val_cons (b : Byte) (bs : List Byte) : val (b :: bs) = b.toNat + 256 * val bs := rfl

@[simp] theorem bytesOf_length (len v : Nat) : (bytesOf len v).length = len := by
  induction len generalizing v with
  | zero => rfl
  | succ len ih => simp [bytesOf, ih]

/-- A sequence of L bytes is below 2^(8L). -/
theorem val_lt (bs : List Byte) : val bs < 2 ^ (8 * bs.length) := by
  induction bs with
  | nil => simp
  | cons b bs ih =>
    have hb := b.isLt
    have hp : 2 ^ (8 * (bs.length + 1)) = 256 * 2 ^ (8 * bs.length) := by
      rw [Nat.mul_add, Nat.pow_add]; omega
    simp only [val_cons, List.length_cons, hp]
    omega

/-- `val(bytes_L(v)) = v mod 2^(8L)` (R10). -/
theorem val_bytesOf (len v : Nat) : val (bytesOf len v) = v % 2 ^ (8 * len) := by
  induction len generalizing v with
  | zero => simp [bytesOf, Nat.mod_one]
  | succ len ih =>
    have hp : 2 ^ (8 * (len + 1)) = 256 * 2 ^ (8 * len) := by
      rw [Nat.mul_add, Nat.pow_add]; omega
    simp only [bytesOf, val_cons, ih, BitVec.toNat_ofNat, hp, Nat.mod_mul]

/-- `bytes_L(val(b)) = b` (R10). -/
theorem bytesOf_val (bs : List Byte) : bytesOf bs.length (val bs) = bs := by
  induction bs with
  | nil => rfl
  | cons b bs ih =>
    have hb := b.isLt
    have hq : (b.toNat + 256 * val bs) / 256 = val bs := by omega
    have hr : BitVec.ofNat 8 (b.toNat + 256 * val bs) = b := by
      apply BitVec.eq_of_toNat_eq
      simp only [BitVec.toNat_ofNat]
      omega
    simp only [List.length_cons, bytesOf, val_cons, hq, hr, ih]

/-- The low bytes come first, the rest above them. -/
theorem val_append (as bs : List Byte) :
    val (as ++ bs) = val as + 2 ^ (8 * as.length) * val bs := by
  induction as with
  | nil => simp
  | cons a as ih =>
    have hp : 2 ^ (8 * (as.length + 1)) = 256 * 2 ^ (8 * as.length) := by
      rw [Nat.mul_add, Nat.pow_add]; omega
    simp only [List.cons_append, val_cons, ih, List.length_cons, hp]
    ring

end Sys2Proof.Machine
end

