-- ==== Sys2Proof/Laws/Command.lean ====
section
/-! SUPPORT. What a command can do, once for every command (R169 to R171), and what its checks
say. -/

namespace Sys2Proof.Machine

/-- The halt gate: a halted BFC answers its own state, a running one whatever it was to answer. -/
theorem State.whenRunning_eq (s : State) (o : Host.Outcome State Fault Refusal) :
    s.whenRunning o = if s.halted then .next s else o := rfl

@[simp] theorem State.whenRunning_running {s : State} (o : Host.Outcome State Fault Refusal)
    (h : s.halted = false) : s.whenRunning o = o := by
  simp [State.whenRunning, h]

@[simp] theorem State.whenRunning_halted {s : State} (o : Host.Outcome State Fault Refusal)
    (h : s.halted = true) : s.whenRunning o = .next s := by
  simp [State.whenRunning, h]

/-- A running command that breaks a check does the error action. -/
@[simp] theorem State.command_error {s : State} {c : Cmd} {e : ErrCode} {eff : State → State}
    (h : s.halted = false) : s.command c (some e) eff = .next (s.raiseError e c) := by
  simp [State.command, h]

/-- A running command that breaks no check has its effect. -/
@[simp] theorem State.command_effect {s : State} {c : Cmd} {eff : State → State} (h : s.halted = false) :
    s.command c none eff = .next (eff s) := by
  simp [State.command, h]

/-- A halted command does nothing. -/
@[simp] theorem State.command_halted {s : State} {c : Cmd} {err : Option ErrCode}
    {eff : State → State} (h : s.halted = true) : s.command c err eff = .next s := by
  simp [State.command, h]

/-- Everything a command can answer. -/
theorem State.command_cases {s t : State} {c : Cmd} {err : Option ErrCode} {eff : State → State}
    (h : s.command c err eff = .next t) :
    (s.halted = true ∧ t = s) ∨ (∃ e, Running s ∧ err = some e ∧ t = s.raiseError e c) ∨
      (Running s ∧ err = none ∧ t = eff s) := by
  cases hs : s.halted with
  | true => rw [State.command_halted hs] at h; injection h with h; exact .inl ⟨rfl, h.symm⟩
  | false =>
    cases err with
    | some e =>
      rw [State.command_error hs] at h; injection h with h
      exact .inr (.inl ⟨e, hs, rfl, h.symm⟩)
    | none =>
      rw [State.command_effect hs] at h; injection h with h
      exact .inr (.inr ⟨hs, rfl, h.symm⟩)

/-! ### The checks -/

@[simp] theorem firstError_nil : firstError [] = none := rfl

@[simp] theorem firstError_cons (c : Bool × ErrCode) (cs : List (Bool × ErrCode)) :
    firstError (c :: cs) = if c.1 then some c.2 else firstError cs := rfl

/-- No check is broken exactly when each of them holds. -/
theorem firstError_eq_none_iff (cs : List (Bool × ErrCode)) :
    firstError cs = none ↔ ∀ c ∈ cs, c.1 = false := by
  induction cs with
  | nil => simp
  | cons c cs ih => cases hc : c.1 <;> simp [hc, ih]

theorem windowError_eq_none_iff (nbuf wbase : Nat) (w : Width) :
    windowError nbuf wbase w = none ↔ WindowLegal nbuf wbase w := by
  simp [windowError, windowBroken]

theorem indexError_eq_none_iff (nbuf idx : Nat) : indexError nbuf idx = none ↔ idx < nbuf := by
  simp [indexError, indexBroken]

theorem maskError_eq_none_iff (w : Width) (boff bwid : Nat) :
    maskError w boff bwid = none ↔ MaskLegal w boff bwid := by
  simp only [maskError, firstError_eq_none_iff, widthBroken, rangeBroken, List.forall_mem_cons,
    Bool.or_eq_false_iff, beq_eq_false_iff_ne, decide_eq_false_iff_not]
  constructor
  · rintro ⟨⟨h1, h2⟩, h3, -⟩
    exact ⟨by omega, by omega, by omega⟩
  · rintro ⟨h1, h2, h3⟩
    exact ⟨⟨by omega, by omega⟩, by omega, by simp⟩

/-- A field command breaks no check exactly when its field is legal and its permission allows it. -/
theorem fieldError_eq_none_iff (nbuf : Nat) (f : Field) (need : Need) :
    fieldError nbuf f need = none ↔ FieldLegal nbuf f ∧ accessAllows f.acc need = true := by
  simp only [fieldError, firstError_eq_none_iff, widthBroken, rangeBroken, valueBroken,
    windowBroken, List.forall_mem_cons, Bool.or_eq_false_iff, beq_eq_false_iff_ne,
    decide_eq_false_iff_not, Bool.not_eq_false']
  constructor
  · rintro ⟨⟨h1, h2⟩, h3, h4, h5, h6, -⟩
    exact ⟨⟨⟨by omega, by omega, by omega⟩, by omega, by omega⟩, h6⟩
  · rintro ⟨⟨⟨h1, h2, h3⟩, h4, h5⟩, h6⟩
    exact ⟨⟨by omega, by omega⟩, by omega, by omega, by omega, h6, by simp⟩

end Sys2Proof.Machine
end

