-- ==== Sys2Proof/Laws/Decode.lean ====
section
/-! SUPPORT. The fields of a packed command word (R61). -/

namespace Sys2Proof

/-- A packed word as a number: the sum of its fields at their places (R61). -/
theorem packCmd_toNat (op acc wsz vsz boff bwid wbase : Nat) :
    (packCmd op acc wsz vsz boff bwid wbase).toNat =
      op % 16 + acc % 4 * 16 + wsz % 4 * 64 + vsz % 4 * 256 + boff % 64 * 1024 +
        bwid % 128 * 65536 + wbase % 256 * 16777216 := by
  simp only [packCmd, BitVec.toNat_append, BitVec.toNat_ofNat, Nat.shiftLeft_eq]
  repeat rw [Nat.mul_comm _ (2 ^ _), ← Nat.two_pow_add_eq_or_of_lt (by omega)]
  omega

@[simp] theorem packCmd_op (op acc wsz vsz boff bwid wbase : Nat) :
    Cmd.op (packCmd op acc wsz vsz boff bwid wbase) = op % 16 := by
  simp only [Cmd.op, BitVec.extractLsb'_toNat, packCmd_toNat, Nat.shiftRight_zero]
  omega

@[simp] theorem packCmd_acc (op acc wsz vsz boff bwid wbase : Nat) :
    Cmd.acc (packCmd op acc wsz vsz boff bwid wbase) = acc % 4 := by
  simp only [Cmd.acc, BitVec.extractLsb'_toNat, packCmd_toNat, Nat.shiftRight_eq_div_pow]
  omega

@[simp] theorem packCmd_wsz (op acc wsz vsz boff bwid wbase : Nat) :
    Cmd.wsz (packCmd op acc wsz vsz boff bwid wbase) = wsz % 4 := by
  simp only [Cmd.wsz, BitVec.extractLsb'_toNat, packCmd_toNat, Nat.shiftRight_eq_div_pow]
  omega

@[simp] theorem packCmd_vsz (op acc wsz vsz boff bwid wbase : Nat) :
    Cmd.vsz (packCmd op acc wsz vsz boff bwid wbase) = vsz % 4 := by
  simp only [Cmd.vsz, BitVec.extractLsb'_toNat, packCmd_toNat, Nat.shiftRight_eq_div_pow]
  omega

@[simp] theorem packCmd_boff (op acc wsz vsz boff bwid wbase : Nat) :
    Cmd.boff (packCmd op acc wsz vsz boff bwid wbase) = boff % 64 := by
  simp only [Cmd.boff, BitVec.extractLsb'_toNat, packCmd_toNat, Nat.shiftRight_eq_div_pow]
  omega

@[simp] theorem packCmd_bwid (op acc wsz vsz boff bwid wbase : Nat) :
    Cmd.bwid (packCmd op acc wsz vsz boff bwid wbase) = bwid % 128 := by
  simp only [Cmd.bwid, BitVec.extractLsb'_toNat, packCmd_toNat, Nat.shiftRight_eq_div_pow]
  omega

@[simp] theorem packCmd_wbase (op acc wsz vsz boff bwid wbase : Nat) :
    Cmd.wbase (packCmd op acc wsz vsz boff bwid wbase) = wbase % 256 := by
  simp only [Cmd.wbase, BitVec.extractLsb'_toNat, packCmd_toNat, Nat.shiftRight_eq_div_pow]
  omega

/-! ### The fixed bits of each row (R69) -/

/-- The fixed bits of a field command's word are its OP and zeros (R69). -/
theorem packCmd_fixed_field (op acc wsz vsz boff bwid wbase : Nat) :
    packCmd op acc wsz vsz boff bwid wbase &&& 0x0080000F = 0#28 ++ BitVec.ofNat 4 op := by
  apply BitVec.eq_of_getLsbD_eq
  intro k hk
  simp only [packCmd, BitVec.getLsbD_and, BitVec.getLsbD_append]
  interval_cases k <;> simp

/-- The fixed bits of RRD and RWR's word are its OP and zeros (R69). -/
theorem packCmd_fixed_window (op wsz wbase : Nat) :
    packCmd op 0 wsz 0 0 0 wbase &&& 0x00FFFF3F = 0#28 ++ BitVec.ofNat 4 op := by
  apply BitVec.eq_of_getLsbD_eq
  intro k hk
  simp only [packCmd, BitVec.getLsbD_and, BitVec.getLsbD_append]
  interval_cases k <;> simp

/-- The fixed bits of MASK's word are its OP and zeros (R69). -/
theorem packCmd_fixed_mask (op wsz boff bwid : Nat) :
    packCmd op 0 wsz 0 boff bwid 0 &&& 0xFF80033F = 0#28 ++ BitVec.ofNat 4 op := by
  apply BitVec.eq_of_getLsbD_eq
  intro k hk
  simp only [packCmd, BitVec.getLsbD_and, BitVec.getLsbD_append]
  interval_cases k <;> simp

/-- The fixed bits of SHR and SHL's word are its OP and zeros (R69). -/
theorem packCmd_fixed_shift (op wsz vsz cnt : Nat) :
    packCmd op 0 wsz vsz cnt 0 0 &&& 0xFFFF003F = 0#28 ++ BitVec.ofNat 4 op := by
  apply BitVec.eq_of_getLsbD_eq
  intro k hk
  simp only [packCmd, BitVec.getLsbD_and, BitVec.getLsbD_append]
  interval_cases k <;> simp

/-- The fixed bits of BRD and BWR's word are its OP and zeros (R69). -/
theorem packCmd_fixed_index (op idx : Nat) :
    packCmd op 0 0 0 0 0 idx &&& 0x00FFFFFF = 0#28 ++ BitVec.ofNat 4 op := by
  apply BitVec.eq_of_getLsbD_eq
  intro k hk
  simp only [packCmd, BitVec.getLsbD_and, BitVec.getLsbD_append]
  interval_cases k <;> simp

/-- The fixed bits of a command with no field's word are its OP and zeros (R69). -/
theorem packCmd_fixed_bare (op : Nat) :
    packCmd op 0 0 0 0 0 0 &&& 0xFFFFFFFF = 0#28 ++ BitVec.ofNat 4 op := by
  apply BitVec.eq_of_getLsbD_eq
  intro k hk
  simp only [packCmd, BitVec.getLsbD_and, BitVec.getLsbD_append]
  interval_cases k <;> simp

@[simp] theorem widthOfCode_code (w : Width) : widthOfCode w.code = w := by cases w <;> rfl

@[simp] theorem accessOfCode_code (a : Access) : accessOfCode a.code = some a := by cases a <;> rfl

end Sys2Proof
end

