-- ==== Sys2Proof/Laws/Memory.lean ====
section
/-! SUPPORT. BUF: reads after writes, and every operation keeps the canonical form. -/

namespace Sys2Proof.Machine

/-- Every listed address of the canonical form lies above the head's. -/
theorem Memory.wf_cons (c : Host.Cell) (m : Memory) :
    Memory.wf (c :: m) = true ↔ c.2 ≠ 0 ∧ (∀ d ∈ m, c.1 < d.1) ∧ Memory.wf m = true := by
  simp [Memory.wf, and_assoc]

/-- The empty list is canonical: the reset state's BUF. -/
theorem Memory.wf_reset : Memory.wf State.reset.buf = true := rfl

/-- An address below every listed one reads 0. -/
theorem Memory.readByte_below (m : Memory) (k : Nat) (h : ∀ d ∈ m, k < d.1) :
    m.readByte k = 0 := by
  induction m with
  | nil => rfl
  | cons c m ih =>
    have hc : k < c.1 := h c (by simp)
    rw [Memory.readByte, if_neg (by omega)]
    exact ih fun d hd => h d (by simp [hd])

/-- The addresses a write lists are the old ones and its own. -/
theorem Memory.mem_writeByte (m : Memory) (k : Nat) (v : Byte) (d : Host.Cell)
    (h : d ∈ m.writeByte k v) : d ∈ m ∨ d.1 = k := by
  induction m with
  | nil =>
    simp only [Memory.writeByte] at h
    split at h <;> simp_all
  | cons c m ih =>
    simp only [Memory.writeByte] at h
    split at h
    · split at h
      · exact .inl h
      · exact (List.mem_cons.mp h).elim (fun e => .inr (by rw [e])) .inl
    · split at h
      · split at h
        · exact .inl (by simp [h])
        · exact (List.mem_cons.mp h).elim (fun e => .inr (by rw [e])) fun hd => .inl (by simp [hd])
      · rcases List.mem_cons.mp h with h | h
        · exact .inl (by simp [h])
        · exact (ih h).imp (fun hd => by simp [hd]) id

/-- A write keeps the canonical form. -/
theorem Memory.wf_writeByte (m : Memory) (k : Nat) (v : Byte) (h : Memory.wf m = true) :
    Memory.wf (m.writeByte k v) = true := by
  induction m with
  | nil =>
    simp only [Memory.writeByte]
    split <;> simp_all [Memory.wf]
  | cons c m ih =>
    obtain ⟨hc, hlt, hm⟩ := (Memory.wf_cons c m).mp h
    simp only [Memory.writeByte]
    split
    · split
      · exact h
      · refine (Memory.wf_cons _ _).mpr ⟨by assumption, ?_, h⟩
        intro d hd
        rcases List.mem_cons.mp hd with rfl | hd
        · assumption
        · have := hlt d hd
          show k < d.1
          omega
    · split
      · split
        · exact hm
        · refine (Memory.wf_cons _ _).mpr ⟨by assumption, ?_, hm⟩
          intro d hd
          have := hlt d hd
          show k < d.1
          omega
      · refine (Memory.wf_cons _ _).mpr ⟨hc, ?_, ih hm⟩
        intro d hd
        rcases Memory.mem_writeByte m k v d hd with hd | hd
        · exact hlt d hd
        · omega

/-- A read after a write gives the value at the written index and the old byte at every other. -/
theorem Memory.readByte_writeByte (m : Memory) (k a : Nat) (v : Byte) (h : Memory.wf m = true) :
    (m.writeByte k v).readByte a = if a = k then v else m.readByte a := by
  induction m with
  | nil =>
    simp only [Memory.writeByte]
    split <;> simp_all [Memory.readByte]
  | cons c m ih =>
    obtain ⟨hc, hlt, hm⟩ := (Memory.wf_cons c m).mp h
    have hbelow : ∀ x, x ≤ c.1 → Memory.readByte m x = 0 := fun x hx =>
      Memory.readByte_below m x fun d hd => by have := hlt d hd; omega
    simp only [Memory.writeByte]
    split
    · split
      · by_cases hak : a = k
        · subst hak
          rw [Memory.readByte, if_neg (by omega), hbelow a (by omega)]
          simp_all
        · simp [hak]
      · simp only [Memory.readByte]
    · split
      · subst k
        split
        · by_cases hac : a = c.1
          · simp_all [hbelow c.1]
          · simp [Memory.readByte, hac]
        · by_cases hac : a = c.1 <;> simp [Memory.readByte, hac]
      · simp only [Memory.readByte, ih hm]
        by_cases hac : a = c.1
        · rw [if_pos hac, if_pos hac, if_neg (by omega)]
        · simp [hac]

/-- Storing a sequence keeps the canonical form. -/
theorem Memory.wf_writeBytes (m : Memory) (a : Nat) (bs : List Byte) (h : Memory.wf m = true) :
    Memory.wf (m.writeBytes a bs) = true := by
  induction bs generalizing m a with
  | nil => exact h
  | cons b bs ih => exact ih _ _ (Memory.wf_writeByte m a b h)

/-- Storing a value keeps the canonical form. -/
theorem Memory.wf_writeVal (m : Memory) (a n v : Nat) (h : Memory.wf m = true) :
    Memory.wf (m.writeVal a n v) = true := Memory.wf_writeBytes m a _ h

/-- Zeroing BUF keeps the canonical form. -/
theorem Memory.wf_zeroed (m : Memory) (n : Nat) (h : Memory.wf m = true) :
    Memory.wf (m.zeroed n) = true := Memory.wf_writeBytes m 0 _ h

/-- The addresses listed after a sequence is stored: old ones, and those of the sequence. -/
theorem Memory.mem_writeBytes (m : Memory) (a : Nat) (bs : List Byte) (d : Host.Cell)
    (h : d ∈ m.writeBytes a bs) : d ∈ m ∨ (a ≤ d.1 ∧ d.1 < a + bs.length) := by
  induction bs generalizing m a with
  | nil => exact .inl h
  | cons b bs ih =>
    rcases ih _ _ h with h | h
    · rcases Memory.mem_writeByte m a b d h with h | h
      · exact .inl h
      · exact .inr (by simp; omega)
    · exact .inr (by simp; omega)

/-- A read after a sequence was stored at `a`: the sequence's byte inside, the old byte outside. -/
theorem Memory.readByte_writeBytes (m : Memory) (a k : Nat) (bs : List Byte)
    (h : Memory.wf m = true) :
    (m.writeBytes a bs).readByte k =
      if a ≤ k ∧ k < a + bs.length then bs.getD (k - a) 0 else m.readByte k := by
  induction bs generalizing m a with
  | nil => rw [if_neg (by simp)]; rfl
  | cons b bs ih =>
    rw [Memory.writeBytes, ih _ _ (Memory.wf_writeByte m a b h), Memory.readByte_writeByte m a k b h]
    rcases Nat.lt_trichotomy k a with hk | hk | hk
    · simp only [List.length_cons]
      rw [if_neg (by omega), if_neg (by omega), if_neg (by omega)]
    · subst hk
      simp
    · obtain ⟨j, rfl⟩ : ∃ j, k = a + 1 + j := ⟨k - (a + 1), by omega⟩
      have h1 : a + 1 + j - (a + 1) = j := by omega
      have h2 : a + 1 + j - a = j + 1 := by omega
      by_cases hj : j < bs.length
      · rw [if_pos (by omega), if_pos (by simp; omega), h1, h2]
        simp
      · rw [if_neg (by omega), if_neg (by omega), if_neg (by simp; omega)]

@[simp] theorem Memory.readBytes_length (m : Memory) (a n : Nat) :
    (m.readBytes a n).length = n := by
  induction n generalizing a with
  | zero => rfl
  | succ n ih => simp [Memory.readBytes, ih]

/-- The bytes of a window are the bytes of BUF. -/
theorem Memory.readBytes_getElem (m : Memory) (a n j : Nat) (h : j < n) :
    (m.readBytes a n)[j]? = some (m.readByte (a + j)) := by
  induction n generalizing a j with
  | zero => omega
  | succ n ih =>
    cases j with
    | zero => simp [Memory.readBytes]
    | succ j =>
      simp only [Memory.readBytes, List.getElem?_cons_succ]
      rw [ih (a + 1) j (by omega)]
      congr 2
      omega

end Sys2Proof.Machine
end

