-- ==== Sys2Proof/Laws/PerInstr.lean ====
section
/-! SUPPORT. Statements made instruction by instruction. `Opcode`: the encoded word carries the OP of
its row (R62). `RowBits`: it passes the must-be-zero test of that row (R69). -/

namespace Sys2Proof.Laws

/-- The OP of a command (R62). -/
def opcodeOf : Instr → Nat
  | .nop => 0x0
  | .frd _ => 0x1
  | .fwr _ _ => 0x2
  | .fwrc _ _ => 0x3
  | .fis _ _ => 0x4
  | .rrd _ _ => 0x5
  | .rwr _ _ _ => 0x6
  | .mask _ _ _ => 0x7
  | .shr _ _ _ _ => 0x8
  | .shl _ _ _ _ => 0x9
  | .shr1b _ => 0xA
  | .shl1b _ => 0xB
  | .brd _ => 0xC
  | .bwr _ _ => 0xD
  | .clr => 0xE
  | .reservedOpF _ => 0xF

/-- The encoded word carries the OP of its row (R62). -/
def Opcode.Statement (i : Instr) : Prop := Cmd.op (encodeCmd i) = opcodeOf i

theorem Opcode.nop : Opcode.Statement .nop := packCmd_op 0x0 0 0 0 0 0 0

theorem Opcode.frd (f : Field) : Opcode.Statement (.frd f) := packCmd_op 0x1 ..

theorem Opcode.fwr (f : Field) (data : Word64) : Opcode.Statement (.fwr f data) := packCmd_op 0x2 ..

theorem Opcode.fwrc (f : Field) (data : Word64) : Opcode.Statement (.fwrc f data) :=
  packCmd_op 0x3 ..

theorem Opcode.fis (f : Field) (data : Word64) : Opcode.Statement (.fis f data) := packCmd_op 0x4 ..

theorem Opcode.rrd (w : Width) (wbase : Nat) : Opcode.Statement (.rrd w wbase) := packCmd_op 0x5 ..

theorem Opcode.rwr (w : Width) (wbase : Nat) (data : Word64) :
    Opcode.Statement (.rwr w wbase data) := packCmd_op 0x6 ..

theorem Opcode.mask (w : Width) (boff bwid : Nat) : Opcode.Statement (.mask w boff bwid) :=
  packCmd_op 0x7 ..

theorem Opcode.shr (w v : Width) (cnt : Nat) (data : Word64) :
    Opcode.Statement (.shr w v cnt data) := packCmd_op 0x8 ..

theorem Opcode.shl (w v : Width) (cnt : Nat) (data : Word64) :
    Opcode.Statement (.shl w v cnt data) := packCmd_op 0x9 ..

theorem Opcode.shr1b (data : Word64) : Opcode.Statement (.shr1b data) := packCmd_op 0xA ..

theorem Opcode.shl1b (data : Word64) : Opcode.Statement (.shl1b data) := packCmd_op 0xB ..

theorem Opcode.brd (idx : Nat) : Opcode.Statement (.brd idx) := packCmd_op 0xC ..

theorem Opcode.bwr (idx : Nat) (data : Word64) : Opcode.Statement (.bwr idx data) :=
  packCmd_op 0xD ..

theorem Opcode.clr : Opcode.Statement .clr := packCmd_op 0xE 0 0 0 0 0 0

theorem Opcode.reservedOpF (rest : BitVec 28) : Opcode.Statement (.reservedOpF rest) := by
  simp only [Opcode.Statement, Cmd.op, encodeCmd, opcodeOf, BitVec.extractLsb'_toNat,
    BitVec.toNat_append, Nat.shiftRight_zero, Nat.shiftLeft_eq]
  rw [Nat.mul_comm _ (2 ^ _), ← Nat.two_pow_add_eq_or_of_lt (by decide)]
  have h : (0xF#4).toNat = 15 := rfl
  omega

/-- The encoded word passes the must-be-zero test of its own row (R69, R71). -/
def RowBits.Statement (i : Instr) : Prop :=
  encodeCmd i &&& rowMask (opcodeOf i) = rowMatch (opcodeOf i)

theorem RowBits.nop :
    RowBits.Statement .nop :=
  (packCmd_fixed_bare 0x0).trans (by decide : 0#28 ++ 0x0#4 = rowMatch 0x0)

theorem RowBits.frd (f : Field) :
    RowBits.Statement (.frd f) :=
  (packCmd_fixed_field 0x1 ..).trans (by decide : 0#28 ++ 0x1#4 = rowMatch 0x1)

theorem RowBits.fwr (f : Field) (data : Word64) :
    RowBits.Statement (.fwr f data) :=
  (packCmd_fixed_field 0x2 ..).trans (by decide : 0#28 ++ 0x2#4 = rowMatch 0x2)

theorem RowBits.fwrc (f : Field) (data : Word64) :
    RowBits.Statement (.fwrc f data) :=
  (packCmd_fixed_field 0x3 ..).trans (by decide : 0#28 ++ 0x3#4 = rowMatch 0x3)

theorem RowBits.fis (f : Field) (data : Word64) :
    RowBits.Statement (.fis f data) :=
  (packCmd_fixed_field 0x4 ..).trans (by decide : 0#28 ++ 0x4#4 = rowMatch 0x4)

theorem RowBits.rrd (w : Width) (wbase : Nat) :
    RowBits.Statement (.rrd w wbase) :=
  (packCmd_fixed_window 0x5 ..).trans (by decide : 0#28 ++ 0x5#4 = rowMatch 0x5)

theorem RowBits.rwr (w : Width) (wbase : Nat) (data : Word64) :
    RowBits.Statement (.rwr w wbase data) :=
  (packCmd_fixed_window 0x6 ..).trans (by decide : 0#28 ++ 0x6#4 = rowMatch 0x6)

theorem RowBits.mask (w : Width) (boff bwid : Nat) :
    RowBits.Statement (.mask w boff bwid) :=
  (packCmd_fixed_mask 0x7 ..).trans (by decide : 0#28 ++ 0x7#4 = rowMatch 0x7)

theorem RowBits.shr (w v : Width) (cnt : Nat) (data : Word64) :
    RowBits.Statement (.shr w v cnt data) :=
  (packCmd_fixed_shift 0x8 ..).trans (by decide : 0#28 ++ 0x8#4 = rowMatch 0x8)

theorem RowBits.shl (w v : Width) (cnt : Nat) (data : Word64) :
    RowBits.Statement (.shl w v cnt data) :=
  (packCmd_fixed_shift 0x9 ..).trans (by decide : 0#28 ++ 0x9#4 = rowMatch 0x9)

theorem RowBits.shr1b (data : Word64) :
    RowBits.Statement (.shr1b data) :=
  (packCmd_fixed_bare 0xA).trans (by decide : 0#28 ++ 0xA#4 = rowMatch 0xA)

theorem RowBits.shl1b (data : Word64) :
    RowBits.Statement (.shl1b data) :=
  (packCmd_fixed_bare 0xB).trans (by decide : 0#28 ++ 0xB#4 = rowMatch 0xB)

theorem RowBits.brd (idx : Nat) :
    RowBits.Statement (.brd idx) :=
  (packCmd_fixed_index 0xC ..).trans (by decide : 0#28 ++ 0xC#4 = rowMatch 0xC)

theorem RowBits.bwr (idx : Nat) (data : Word64) :
    RowBits.Statement (.bwr idx data) :=
  (packCmd_fixed_index 0xD ..).trans (by decide : 0#28 ++ 0xD#4 = rowMatch 0xD)

theorem RowBits.clr :
    RowBits.Statement .clr :=
  (packCmd_fixed_bare 0xE).trans (by decide : 0#28 ++ 0xE#4 = rowMatch 0xE)

theorem RowBits.reservedOpF (rest : BitVec 28) : RowBits.Statement (.reservedOpF rest) := by
  apply BitVec.eq_of_getLsbD_eq
  intro k hk
  simp only [encodeCmd, rowMask, rowMatch, opcodeOf, BitVec.getLsbD_and, BitVec.getLsbD_append]
  interval_cases k <;> simp

end Sys2Proof.Laws
end

