-- ==== Sys2Proof/Laws/State.lean ====
section
/-! SUPPORT. One lemma per field per update of the state, so that no later proof unfolds a record
update. -/

namespace Sys2Proof.Machine

@[simp] theorem State.setBuf_buf (s : State) (m : Memory) : (s.setBuf m).buf = m := rfl
@[simp] theorem State.setBuf_result (s : State) (m : Memory) :
    (s.setBuf m).result =
      s.result :=
  rfl
@[simp] theorem State.setBuf_flag (s : State) (m : Memory) : (s.setBuf m).flag = s.flag := rfl
@[simp] theorem State.setBuf_status (s : State) (m : Memory) :
    (s.setBuf m).status =
      s.status :=
  rfl
@[simp] theorem State.setBuf_errcmd (s : State) (m : Memory) :
    (s.setBuf m).errcmd =
      s.errcmd :=
  rfl
@[simp] theorem State.setBuf_nbuf (s : State) (m : Memory) : (s.setBuf m).nbuf = s.nbuf := rfl
@[simp] theorem State.setBuf_inputs (s : State) (m : Memory) :
    (s.setBuf m).inputs =
      s.inputs :=
  rfl
@[simp] theorem State.setBuf_choices (s : State) (m : Memory) :
    (s.setBuf m).choices =
      s.choices :=
  rfl

@[simp] theorem State.setResult_buf (s : State) (v : Word64) : (s.setResult v).buf = s.buf := rfl
@[simp] theorem State.setResult_result (s : State) (v : Word64) :
    (s.setResult v).result =
      v :=
  rfl
@[simp] theorem State.setResult_flag (s : State) (v : Word64) :
    (s.setResult v).flag =
      s.flag :=
  rfl
@[simp] theorem State.setResult_status (s : State) (v : Word64) :
    (s.setResult v).status =
      s.status :=
  rfl
@[simp] theorem State.setResult_errcmd (s : State) (v : Word64) :
    (s.setResult v).errcmd =
      s.errcmd :=
  rfl
@[simp] theorem State.setResult_nbuf (s : State) (v : Word64) :
    (s.setResult v).nbuf =
      s.nbuf :=
  rfl
@[simp] theorem State.setResult_inputs (s : State) (v : Word64) :
    (s.setResult v).inputs =
      s.inputs :=
  rfl
@[simp] theorem State.setResult_choices (s : State) (v : Word64) :
    (s.setResult v).choices =
      s.choices :=
  rfl

@[simp] theorem State.setFlag_buf (s : State) (f : Bool) : (s.setFlag f).buf = s.buf := rfl
@[simp] theorem State.setFlag_result (s : State) (f : Bool) :
    (s.setFlag f).result =
      s.result :=
  rfl
@[simp] theorem State.setFlag_flag (s : State) (f : Bool) : (s.setFlag f).flag = f := rfl
@[simp] theorem State.setFlag_status (s : State) (f : Bool) :
    (s.setFlag f).status =
      s.status :=
  rfl
@[simp] theorem State.setFlag_errcmd (s : State) (f : Bool) :
    (s.setFlag f).errcmd =
      s.errcmd :=
  rfl
@[simp] theorem State.setFlag_nbuf (s : State) (f : Bool) : (s.setFlag f).nbuf = s.nbuf := rfl
@[simp] theorem State.setFlag_inputs (s : State) (f : Bool) :
    (s.setFlag f).inputs =
      s.inputs :=
  rfl
@[simp] theorem State.setFlag_choices (s : State) (f : Bool) :
    (s.setFlag f).choices =
      s.choices :=
  rfl

@[simp] theorem State.setTriv_buf (s : State) (t : Bool) : (s.setTriv t).buf = s.buf := rfl
@[simp] theorem State.setTriv_result (s : State) (t : Bool) :
    (s.setTriv t).result =
      s.result :=
  rfl
@[simp] theorem State.setTriv_flag (s : State) (t : Bool) : (s.setTriv t).flag = s.flag := rfl
@[simp] theorem State.setTriv_status (s : State) (t : Bool) :
    (s.setTriv t).status =
      withTriv s.status t :=
  rfl
@[simp] theorem State.setTriv_errcmd (s : State) (t : Bool) :
    (s.setTriv t).errcmd =
      s.errcmd :=
  rfl
@[simp] theorem State.setTriv_nbuf (s : State) (t : Bool) : (s.setTriv t).nbuf = s.nbuf := rfl
@[simp] theorem State.setTriv_inputs (s : State) (t : Bool) :
    (s.setTriv t).inputs =
      s.inputs :=
  rfl
@[simp] theorem State.setTriv_choices (s : State) (t : Bool) :
    (s.setTriv t).choices =
      s.choices :=
  rfl

@[simp] theorem State.setInputs_buf (s : State) (l : List HostAction) :
    (s.setInputs l).buf =
      s.buf :=
  rfl
@[simp] theorem State.setInputs_result (s : State) (l : List HostAction) :
    (s.setInputs l).result =
      s.result :=
  rfl
@[simp] theorem State.setInputs_flag (s : State) (l : List HostAction) :
    (s.setInputs l).flag =
      s.flag :=
  rfl
@[simp] theorem State.setInputs_status (s : State) (l : List HostAction) :
    (s.setInputs l).status =
      s.status :=
  rfl
@[simp] theorem State.setInputs_errcmd (s : State) (l : List HostAction) :
    (s.setInputs l).errcmd =
      s.errcmd :=
  rfl
@[simp] theorem State.setInputs_nbuf (s : State) (l : List HostAction) :
    (s.setInputs l).nbuf =
      s.nbuf :=
  rfl
@[simp] theorem State.setInputs_inputs (s : State) (l : List HostAction) :
    (s.setInputs l).inputs =
      l :=
  rfl
@[simp] theorem State.setInputs_choices (s : State) (l : List HostAction) :
    (s.setInputs l).choices =
      s.choices :=
  rfl

@[simp] theorem State.raiseError_buf (s : State) (e : ErrCode) (c : Cmd) :
    (s.raiseError e c).buf =
      s.buf :=
  rfl
@[simp] theorem State.raiseError_result (s : State) (e : ErrCode) (c : Cmd) :
    (s.raiseError e c).result =
      s.result :=
  rfl
@[simp] theorem State.raiseError_flag (s : State) (e : ErrCode) (c : Cmd) :
    (s.raiseError e c).flag =
      s.flag :=
  rfl
@[simp] theorem State.raiseError_status (s : State) (e : ErrCode) (c : Cmd) :
    (s.raiseError e c).status =
      withError s.status e :=
  rfl
@[simp] theorem State.raiseError_errcmd (s : State) (e : ErrCode) (c : Cmd) :
    (s.raiseError e c).errcmd =
      c :=
  rfl
@[simp] theorem State.raiseError_nbuf (s : State) (e : ErrCode) (c : Cmd) :
    (s.raiseError e c).nbuf =
      s.nbuf :=
  rfl
@[simp] theorem State.raiseError_inputs (s : State) (e : ErrCode) (c : Cmd) :
    (s.raiseError e c).inputs =
      s.inputs :=
  rfl
@[simp] theorem State.raiseError_choices (s : State) (e : ErrCode) (c : Cmd) :
    (s.raiseError e c).choices =
      s.choices :=
  rfl

@[simp] theorem State.applyReset_buf (s : State) (mode : ResetMode) :
    (s.applyReset mode).buf =
      s.bufAfterReset mode :=
  rfl
@[simp] theorem State.applyReset_result (s : State) (mode : ResetMode) :
    (s.applyReset mode).result =
      0 :=
  rfl
@[simp] theorem State.applyReset_flag (s : State) (mode : ResetMode) :
    (s.applyReset mode).flag =
      false :=
  rfl
@[simp] theorem State.applyReset_status (s : State) (mode : ResetMode) :
    (s.applyReset mode).status =
      0 :=
  rfl
@[simp] theorem State.applyReset_errcmd (s : State) (mode : ResetMode) :
    (s.applyReset mode).errcmd =
      0 :=
  rfl
@[simp] theorem State.applyReset_nbuf (s : State) (mode : ResetMode) :
    (s.applyReset mode).nbuf =
      s.nbuf :=
  rfl
@[simp] theorem State.applyReset_inputs (s : State) (mode : ResetMode) :
    (s.applyReset mode).inputs =
      s.inputs :=
  rfl
@[simp] theorem State.applyReset_choices (s : State) (mode : ResetMode) :
    (s.applyReset mode).choices =
      s.choices :=
  rfl

@[simp] theorem State.countChoice_buf (s : State) : (s.countChoice).buf = s.buf := rfl
@[simp] theorem State.countChoice_result (s : State) : (s.countChoice).result = s.result := rfl
@[simp] theorem State.countChoice_flag (s : State) : (s.countChoice).flag = s.flag := rfl
@[simp] theorem State.countChoice_status (s : State) : (s.countChoice).status = s.status := rfl
@[simp] theorem State.countChoice_errcmd (s : State) : (s.countChoice).errcmd = s.errcmd := rfl
@[simp] theorem State.countChoice_nbuf (s : State) : (s.countChoice).nbuf = s.nbuf := rfl
@[simp] theorem State.countChoice_inputs (s : State) : (s.countChoice).inputs = s.inputs := rfl
@[simp] theorem State.countChoice_choices (s : State)  :
    (s.countChoice ).choices =
      s.choices + 1 :=
  rfl

@[simp] theorem State.setWindow_buf (s : State) (a : Nat) (win : List Byte) :
    (s.setWindow a win).buf =
      s.buf.writeBytes a win :=
  rfl
@[simp] theorem State.setWindow_result (s : State) (a : Nat) (win : List Byte) :
    (s.setWindow a win).result =
      s.result :=
  rfl
@[simp] theorem State.setWindow_flag (s : State) (a : Nat) (win : List Byte) :
    (s.setWindow a win).flag =
      s.flag :=
  rfl
@[simp] theorem State.setWindow_status (s : State) (a : Nat) (win : List Byte) :
    (s.setWindow a win).status =
      s.status :=
  rfl
@[simp] theorem State.setWindow_errcmd (s : State) (a : Nat) (win : List Byte) :
    (s.setWindow a win).errcmd =
      s.errcmd :=
  rfl
@[simp] theorem State.setWindow_nbuf (s : State) (a : Nat) (win : List Byte) :
    (s.setWindow a win).nbuf =
      s.nbuf :=
  rfl
@[simp] theorem State.setWindow_inputs (s : State) (a : Nat) (win : List Byte) :
    (s.setWindow a win).inputs =
      s.inputs :=
  rfl
@[simp] theorem State.setWindow_choices (s : State) (a : Nat) (win : List Byte) :
    (s.setWindow a win).choices =
      s.choices :=
  rfl

@[simp] theorem State.storeField_buf (s : State) (f : Field) (d : Word64) :
    (s.storeField f d).buf =
      s.buf.writeBytes f.wbase (fieldWrite f (s.window f.wbase f.w) (dataValue f.v d)) :=
  rfl
@[simp] theorem State.storeField_result (s : State) (f : Field) (d : Word64) :
    (s.storeField f d).result =
      s.result :=
  rfl
@[simp] theorem State.storeField_flag (s : State) (f : Field) (d : Word64) :
    (s.storeField f d).flag =
      s.flag :=
  rfl
@[simp] theorem State.storeField_status (s : State) (f : Field) (d : Word64) :
    (s.storeField f d).status =
      withTriv s.status (fieldTrivial f) :=
  rfl
@[simp] theorem State.storeField_errcmd (s : State) (f : Field) (d : Word64) :
    (s.storeField f d).errcmd =
      s.errcmd :=
  rfl
@[simp] theorem State.storeField_nbuf (s : State) (f : Field) (d : Word64) :
    (s.storeField f d).nbuf =
      s.nbuf :=
  rfl
@[simp] theorem State.storeField_inputs (s : State) (f : Field) (d : Word64) :
    (s.storeField f d).inputs =
      s.inputs :=
  rfl
@[simp] theorem State.storeField_choices (s : State) (f : Field) (d : Word64) :
    (s.storeField f d).choices =
      s.choices :=
  rfl

@[simp] theorem State.sendFirst_buf (s : State) (c : Cmd) (d : Word64) :
    (s.sendFirst c d).buf =
      s.buf :=
  rfl
@[simp] theorem State.sendFirst_result (s : State) (c : Cmd) (d : Word64) :
    (s.sendFirst c d).result =
      s.result :=
  rfl
@[simp] theorem State.sendFirst_flag (s : State) (c : Cmd) (d : Word64) :
    (s.sendFirst c d).flag =
      s.flag :=
  rfl
@[simp] theorem State.sendFirst_status (s : State) (c : Cmd) (d : Word64) :
    (s.sendFirst c d).status =
      s.status :=
  rfl
@[simp] theorem State.sendFirst_errcmd (s : State) (c : Cmd) (d : Word64) :
    (s.sendFirst c d).errcmd =
      s.errcmd :=
  rfl
@[simp] theorem State.sendFirst_nbuf (s : State) (c : Cmd) (d : Word64) :
    (s.sendFirst c d).nbuf =
      s.nbuf :=
  rfl
@[simp] theorem State.sendFirst_inputs (s : State) (c : Cmd) (d : Word64) :
    (s.sendFirst c d).inputs =
      .command c d :: s.inputs :=
  rfl
@[simp] theorem State.sendFirst_choices (s : State) (c : Cmd) (d : Word64) :
    (s.sendFirst c d).choices =
      s.choices :=
  rfl

@[simp] theorem State.withFetchWord_inputs (s : State) (nbits w : Nat) :
    (s.withFetchWord nbits w).inputs = .command (tableCmd nbits w) (tableData nbits w) :: s.inputs :=
  rfl

@[simp] theorem State.bufAfterReset_noinit (s : State) : s.bufAfterReset .noinit = s.buf := rfl

@[simp] theorem State.bufAfterReset_zero (s : State) :
    s.bufAfterReset .zero = s.buf.zeroed s.nbuf := rfl

end Sys2Proof.Machine
end

