-- ==== Sys2Proof/Laws/Port.lean ====
section
/-! SUPPORT. What a step can do: one case per host action. -/

namespace Sys2Proof.Machine

/-- With nothing to come a step changes nothing. -/
theorem step_idle {s : State} (h : s.inputs = []) : step s = .next s := by
  simp [step, State.serve, h]

/-- A step performs the first action of the list on the state without it. -/
theorem step_action {s : State} {a : HostAction} {rest : List HostAction}
    (h : s.inputs = a :: rest) : step s = (s.setInputs rest).perform a := by
  simp [step, State.serve, h]

/-- A running BFC given a word that decodes runs the instruction. -/
theorem State.runCommand_ok {s : State} {c : Cmd} {d : Word64} {i : Instr} (h : s.halted = false)
    (hd : decode c d = .ok i) : s.runCommand c d = exec i s := by
  simp [State.runCommand, h, hd]

/-- A running BFC given a reserved spelling raises ERR_RSVD. -/
theorem State.runCommand_error {s : State} {c : Cmd} {d : Word64} {e : DecodeError} (h : s.halted = false)
    (hd : decode c d = .error e) : s.runCommand c d = .next (s.raiseError .rsvd c) := by
  simp [State.runCommand, h, hd]

/-- A halted BFC discards a command. -/
theorem State.runCommand_halted {s : State} {c : Cmd} {d : Word64} (h : s.halted = true) :
    s.runCommand c d = .next s := by
  simp [State.runCommand, h]

/-- Everything a reset during a command can answer. -/
theorem State.resetDuring_cases {s t : State} {mode : ResetMode} {c : Cmd} {d : Word64}
    (h : s.resetDuring mode c d = .next t) :
    (∃ u, s.countChoice.runCommand c d = .next u ∧ t = u.applyReset mode) ∨
      t = s.countChoice.applyReset mode := by
  simp only [State.resetDuring] at h
  split at h
  · split at h
    · injection h with h
      exact .inl ⟨_, by assumption, h.symm⟩
    · cases h
    · cases h
  · injection h with h
    exact .inr h.symm

/-- Everything a step can answer. -/
theorem step_cases {s t : State} (h : step s = .next t) :
    (s.inputs = [] ∧ t = s) ∨
    (∃ c d rest, s.inputs = .command c d :: rest ∧ (s.setInputs rest).runCommand c d = .next t) ∨
    (∃ mode rest, s.inputs = .reset mode :: rest ∧ t = (s.setInputs rest).applyReset mode) ∨
    (∃ mode c d rest, s.inputs = .resetInFlight mode c d :: rest ∧
      (s.setInputs rest).resetDuring mode c d = .next t) := by
  cases hi : s.inputs with
  | nil => rw [step_idle hi] at h; injection h with h; exact .inl ⟨rfl, h.symm⟩
  | cons a rest =>
    rw [step_action hi] at h
    cases a with
    | command c d => exact .inr (.inl ⟨c, d, rest, rfl, h⟩)
    | reset mode => injection h with h; exact .inr (.inr (.inl ⟨mode, rest, rfl, h.symm⟩))
    | resetInFlight mode c d => exact .inr (.inr (.inr ⟨mode, c, d, rest, rfl, h⟩))

end Sys2Proof.Machine
end

