-- ==== Sys2Proof/Laws/Status.lean ====
section
/-! SUPPORT. STATUS as a number: the places of its fields (R25), so that facts about them are linear
arithmetic. -/

namespace Sys2Proof.Machine

theorem statusHalt_eq (st : BitVec 32) : statusHalt st = decide (st.toNat % 2 = 1) := by
  simp [statusHalt, BitVec.getLsbD, Nat.testBit_zero]

theorem statusEcode_toNat (st : BitVec 32) : (statusEcode st).toNat = st.toNat / 2 % 16 := by
  simp [statusEcode, BitVec.extractLsb'_toNat, Nat.shiftRight_eq_div_pow]

theorem statusTriv_eq (st : BitVec 32) : statusTriv st = decide (st.toNat / 32 % 2 = 1) := by
  simp [statusTriv, BitVec.getLsbD, Nat.testBit_eq_decide_div_mod_eq]

theorem statusReserved_toNat (st : BitVec 32) : (statusReserved st).toNat = st.toNat / 64 := by
  have := st.isLt
  simp [statusReserved, BitVec.extractLsb'_toNat, Nat.shiftRight_eq_div_pow]
  omega

theorem withTriv_toNat (st : BitVec 32) (t : Bool) :
    (withTriv st t).toNat = st.toNat / 64 * 64 + t.toNat * 32 + st.toNat % 32 := by
  have h1 := (statusHalt st).toNat_lt
  have h2 := (statusEcode st).isLt
  have h3 := t.toNat_lt
  have hh : (statusHalt st).toNat = st.toNat % 2 := by
    rw [statusHalt_eq]
    rcases Nat.mod_two_eq_zero_or_one st.toNat with h | h <;> simp [h]
  simp only [withTriv, BitVec.toNat_append, BitVec.toNat_ofBool, Nat.shiftLeft_eq]
  repeat rw [Nat.mul_comm _ (2 ^ _), ← Nat.two_pow_add_eq_or_of_lt (by omega)]
  rw [statusReserved_toNat, statusEcode_toNat, hh]
  omega

theorem withError_toNat (st : BitVec 32) (e : ErrCode) :
    (withError st e).toNat = st.toNat / 32 * 32 + (errNumber e).toNat * 2 + 1 := by
  have h2 := (errNumber e).isLt
  have h3 := (statusTriv st).toNat_lt
  have hh : (statusTriv st).toNat = st.toNat / 32 % 2 := by
    rw [statusTriv_eq]
    rcases Nat.mod_two_eq_zero_or_one (st.toNat / 32) with h | h <;> simp [h]
  have h1 : (1#1).toNat = 1 := rfl
  simp only [withError, BitVec.toNat_append, BitVec.toNat_ofBool, Nat.shiftLeft_eq]
  repeat rw [Nat.mul_comm _ (2 ^ _), ← Nat.two_pow_add_eq_or_of_lt (by omega)]
  rw [statusReserved_toNat, hh]
  omega

/-- Each error's code is its place in R160's table. -/
theorem errNumber_bounds (e : ErrCode) : 1 ≤ (errNumber e).toNat ∧ (errNumber e).toNat ≤ 8 := by
  cases e <;> decide

/-- Different errors have different codes. -/
theorem errNumber_injective (e e' : ErrCode) (h : errNumber e = errNumber e') : e = e' := by
  revert h
  cases e <;> cases e' <;> decide

end Sys2Proof.Machine
end

