-- ==== Sys2Proof/Tests/Slice0.lean ====
section
/-! SUPPORT. The model's own tests. Words, operands and expected values are those of
spec/95_test_vectors.md and of the commands' rules, not the model's own answers; each comment names its
source. -/

namespace Sys2Proof.Tests

open Sys2Proof.Machine

/-! ### Helpers -/

/-- A state right after reset but for the given bytes of BUF. -/
def holding (start : Nat) (bytes : List Byte) : State :=
  State.reset.setBuf (Memory.writeBytes [] start bytes)

/-- The state after a step that answers one, and State.reset where it does not. -/
def ran : Host.Outcome State Fault Refusal → State
  | .next t => t
  | .fault _ => State.reset
  | .refused _ => State.reset

/-- The state after one command. -/
def sent (s : State) (c : Cmd) (d : Word64) : State := ran (step (s.sendFirst c d))

/-- A halted state: the reset state after OP = 0xF. -/
def haltedState : State := State.reset.raiseError .opcode 0xF

/-- A field of a 4-byte window at 12: bits 8 to 15, read as one byte (R75). -/
def byteField (acc : Access) : Field :=
  { acc := acc
    w := .b4
    v := .b1
    wbase := 12
    boff := 8
    bwid := 8 }

/-- A field that crosses a byte boundary: bits 4 to 11 of the 2-byte window at 0 (L2.4). -/
def crossField (acc : Access) : Field :=
  { acc := acc
    w := .b2
    v := .b1
    wbase := 0
    boff := 4
    bwid := 8 }

/-- The field of the given shape at the last window of BUF. -/
def lastField (acc : Access) (boff bwid : Nat) : Field :=
  { acc := acc
    w := .b4
    v := .b4
    wbase := 92
    boff := boff
    bwid := bwid }

/-! ### Well-formedness: each check refuses an operand one past its range (R61, R73) -/

theorem test_wf_refuses_base : Instr.wf (.brd 256) = false ∧ Instr.wf (.bwr 256 0) = false ∧
    Instr.wf (.rrd .b1 256) = false ∧ Instr.wf (.rwr .b1 256 0) = false := by decide

theorem test_wf_refuses_offset : Instr.wf (.mask .b8 64 1) = false ∧
    Instr.wf (.shr .b8 .b8 64 0) = false ∧ Instr.wf (.shl .b8 .b8 64 0) = false := by decide

theorem test_wf_refuses_width : Instr.wf (.mask .b8 0 128) = false := by decide

theorem test_wf_refuses_field : Instr.wf (.frd { byteField .rw with wbase := 256 }) = false ∧
    Instr.wf (.fwr { byteField .rw with boff := 64 } 0) = false ∧
    Instr.wf (.fwrc { byteField .rw with bwid := 128 } 0) = false ∧
    Instr.wf (.fis { byteField .rw with wbase := 256 } 0) = false := by decide

theorem test_wf_accepts_limits : Instr.wf (.brd 255) = true ∧ Instr.wf (.mask .b8 63 127) = true ∧
    Instr.wf (.frd { byteField .rw with wbase := 255, boff := 63, bwid := 127 }) = true := by decide

/-! ### Decoding: one word of the spec for every constructor -/

/-- L2.8. -/
theorem test_decode_nop : decodeTableWord 32 0x00000000 = some .nop := by decide

/-- R75: 0x1 | 2<<6 | 8<<10 | 8<<16 | 12<<24. -/
theorem test_decode_frd : decodeTableWord 32 0x0C082081 = some (.frd (byteField .rw)) := by decide

/-- L2.4, with DATA in the second word. -/
theorem test_decode_fwr : decodeTableWord 96 0xAB00081042 =
    some (.fwr (crossField .rw) 0xAB) := by decide

/-- L2.4. -/
theorem test_decode_fwrc : decodeTableWord 96 0xAB00081043 =
    some (.fwrc (crossField .rw) 0xAB) := by decide

/-- L2.9, `FIS wo, W4, V1, 0, 0, 8`. -/
theorem test_decode_fis : decodeTableWord 32 0x000800A4 =
    some (.fis { byteField .wo with wbase := 0, boff := 0 } 0) := by decide

/-- L2.6. -/
theorem test_decode_rrd : decodeTableWord 32 0x580000C5 = some (.rrd .b8 88) := by decide

/-- L2.6. -/
theorem test_decode_rwr : decodeTableWord 96 0xA1B2C3D45E000046 =
    some (.rwr .b2 94 0xA1B2C3D4) := by decide

/-- L2.3. -/
theorem test_decode_mask : decodeTableWord 32 0x000D1487 = some (.mask .b4 5 13) := by decide

/-- L2.2, `SHR W8, V2, 12`. -/
theorem test_decode_shr : decodeTableWord 32 0x000031C8 = some (.shr .b8 .b2 12 0) := by decide

/-- L2.2, `SHL W4, V2, 7`. -/
theorem test_decode_shl : decodeTableWord 96 0x81FF00001D89 =
    some (.shl .b4 .b2 7 0x81FF) := by decide

/-- L1.1. -/
theorem test_decode_shr1b : decodeTableWord 96 0x810000000A = some (.shr1b 0x81) := by decide

/-- L1.1. -/
theorem test_decode_shl1b : decodeTableWord 96 0x810000000B = some (.shl1b 0x81) := by decide

/-- L2.7. -/
theorem test_decode_brd : decodeTableWord 32 0x5F00000C = some (.brd 95) := by decide

/-- L2.7. -/
theorem test_decode_bwr : decodeTableWord 32 0xC800000D = some (.bwr 200 0) := by decide

/-- L2.8. -/
theorem test_decode_clr : decodeTableWord 32 0x0000000E = some .clr := by decide

/-- L2.9, OP = 0xF with RSV set. -/
theorem test_decode_reserved : decodeTableWord 32 0x0080000F =
    some (.reservedOpF 0x0080000) := by decide

/-- L2.9, the four reserved spellings. -/
theorem test_decode_refuses : decodeTableWord 32 0x00880081 = none ∧
    decodeTableWord 32 0x00000010 = none ∧ decodeTableWord 32 0x000800B1 = none ∧
    decodeTableWord 32 0x0C000185 = none := by decide

/-- P1, P2, L2.2: words of the other fields, by encoding. -/
theorem test_encode : encodeCmd (.fwr (byteField .rw) 0) = 0x0C082082 ∧
    encodeCmd (.shr .b4 .b4 33 0) = 0x00008688 ∧ encodeCmd (.mask .b8 0 64) = 0x004000C7 ∧
    encodeCmd (.reservedOpF 0x0080000) = 0x0080000F := by decide

/-! ### One step of each command -/

/-- R146. -/
theorem test_nop : sent (holding 0 [1]) 0x00000000 5 = holding 0 [1] := by decide

/-- L2.4: a field across a byte boundary. -/
theorem test_frd_masked : (sent (holding 0 [0x5A, 0xC3]) 0x00081051 0).result = 0x35 ∧
    (sent (holding 0 [0x5A, 0xC3]) 0x00081051 0).status = 0 := by decide

/-- L2.5: V larger than the field, zero-extended, trivial path. -/
theorem test_frd_trivial : (sent (holding 0 [0x11, 0x22, 0x33, 0x44]) 0x00102281 0).result = 0x3322 ∧
    (sent (holding 0 [0x11, 0x22, 0x33, 0x44]) 0x00102281 0).status = 0x20 := by decide

/-- L2.4. -/
theorem test_fwr_masked : (sent (holding 0 [0xFF, 0xFF, 0xFF, 0xFF]) 0x000D1582 0).buf =
    (holding 0 [0x1F, 0x00, 0xFC, 0xFF]).buf := by decide

/-- L2.5: only the field's byte is written. -/
theorem test_fwr_trivial : (sent (holding 0 [0x11, 0x22, 0x33, 0x44]) 0x00082282 0x12345678).buf =
    (holding 0 [0x11, 0x78, 0x33, 0x44]).buf := by decide

/-- L2.4. -/
theorem test_fwrc : (sent (holding 0 [0x5A, 0xC3]) 0x00081043 0xAB).buf =
    (holding 0 [0xBA, 0xCA]).buf := by decide

/-- L2.9: a write through RO, with the error record of L2.10. -/
theorem test_fwrc_access : (sent State.reset 0x00080093 0).status = 0x0F ∧
    (sent State.reset 0x00080093 0).errcmd = 0x00080093 := by decide

/-- L2.4: DATA is truncated to V = 1 byte. -/
theorem test_fis_truncates : (sent (holding 0 [0x5A, 0xC3]) 0x00081044 0x135).flag = true := by decide

/-- L2.4: with V = 2 the comparand is 0x135. -/
theorem test_fis_wide : (sent (holding 0 [0x5A, 0xC3]) 0x00081144 0x135).flag = false := by decide

/-- L2.6: the last 8-byte window. -/
theorem test_rrd : (sent (holding 88 [0xA0, 0xA1, 0xA2, 0xA3, 0xA4, 0xA5, 0xA6, 0xA7])
    0x580000C5 0).result = 0xA7A6A5A4A3A2A1A0 := by decide

/-- L2.6: one byte past NBUF. -/
theorem test_rrd_window : (sent State.reset 0x590000C5 0).status = 0x0D ∧
    (sent State.reset 0x590000C5 0).errcmd = 0x590000C5 := by decide

/-- L2.6: high DATA bytes dropped. -/
theorem test_rwr : (sent State.reset 0x5E000046 0xA1B2C3D4).buf =
    [(94, 0xD4), (95, 0xC3)] := by decide

/-- L2.6. -/
theorem test_rwr_window : (sent (holding 0 [1]) 0x60000006 9).buf = [(0, 1)] ∧
    (sent (holding 0 [1]) 0x60000006 9).status = 0x0D := by decide

/-- L2.3. -/
theorem test_mask : (sent State.reset 0x000D1487 0).result = 0x3FFE0 := by decide

/-- L2.3: the width is checked before the range. -/
theorem test_mask_width : (sent State.reset 0x00410007 0).status = 0x07 := by decide

/-- L1.1: the carry goes from byte i+1 into bit 7 of byte i. -/
theorem test_shr : (sent State.reset 0x00000688 0x84838281).result = 0x4241C140 := by decide

/-- L2.2: input truncated to W = 2, result zero-extended. -/
theorem test_shr_extends : (sent State.reset 0x00001348 0xFFFFABCD).result = 0xABC := by decide

/-- L2.2: carries move up a byte and the top bit is lost. -/
theorem test_shl : (sent State.reset 0x00000689 0x84838281).result = 0x09070502 := by decide

/-- L2.2: the count equals the width. -/
theorem test_shl_all : (sent State.reset 0x00004149 0xFFFF).result = 0 := by decide

/-- L2.1: DATA[63:8] ignored. -/
theorem test_shr1b : (sent State.reset 0x0000000A 0x1FF).result = 0x7F ∧
    (sent State.reset 0x0000000A 0x1FF).flag = true := by decide

/-- L2.1. -/
theorem test_shl1b : (sent State.reset 0x0000000B 0x7F).result = 0xFE ∧
    (sent State.reset 0x0000000B 0x7F).flag = false := by decide

/-- L2.7. -/
theorem test_brd : (sent (holding 95 [0x5C]) 0x5F00000C 0).result = 0x5C := by decide

/-- L2.7. -/
theorem test_brd_index : (sent State.reset 0x6000000C 0).status = 0x11 := by decide

/-- L2.7. -/
theorem test_bwr : (sent State.reset 0x0000000D 0x1FF).buf = [(0, 0xFF)] := by decide

/-- L2.7. -/
theorem test_bwr_index : (sent State.reset 0xC800000D 1).status = 0x11 := by decide

/-- L2.8. -/
theorem test_clr : (sent (holding 3 [1, 2]) 0x0000000E 0).buf = [] := by decide

/-- L2.9: OP = 0xF is checked before the reserved bits. -/
theorem test_opcode : (sent State.reset 0x0080000F 0).status = 0x03 ∧
    (sent State.reset 0x0080000F 0).errcmd = 0x0080000F := by decide

/-- L2.9: the ACC bit of a NOP. -/
theorem test_rsvd : (sent State.reset 0x00000010 0).status = 0x05 := by decide

/-- L2.9: of WINDOW and ACCESS, WINDOW is raised. -/
theorem test_priority : (sent State.reset 0x5D080092 0).status = 0x0D := by decide

/-- L2.10: a legal write is discarded while halted. -/
theorem test_halted : sent haltedState 0x00080082 7 = haltedState := by decide

/-- L2.10: a warm NOINIT reset keeps BUF and clears the record. -/
theorem test_reset_noinit :
    ran (step (((holding 0 [1, 2]).raiseError .access 0x00080092).setInputs [.reset .noinit])) =
      holding 0 [1, 2] := by decide

/-- R183. -/
theorem test_reset_zero :
    ran (step ((haltedState.setBuf [(7, 9)]).setInputs [.reset .zero])) = State.reset := by decide

/-- P2: a power-on NOINIT reset over a received buffer. -/
theorem test_power_on : (State.powerOnReset 8 [1, 2, 0, 4, 5, 6, 7, 8] .noinit).buf =
    [(0, 1), (1, 2), (3, 4), (4, 5), (5, 6), (6, 7), (7, 8)] := by decide

/-! ### The assembler (R73 to R75) -/

theorem test_asm_example : (assembleText "FRD rw, W4, V1, 12, 8, 8").map encode =
    some (0x0C082081, 0) := by decide

theorem test_asm_data : (assembleText "SHR W4, V4, 1, #0x84838281").map encode =
    some (0x00000688, 0x84838281) := by decide

theorem test_asm_pseudo : (assembleText "FSET W4, V1, 0, 0").map encode = some (0x00010082, 1) ∧
    (assembleText "RZERO W4, 12").map encode = some (0x0C000086, 0) := by decide

theorem test_asm_refuses : assembleText "BRD 256" = none ∧ assembleText "SHR W4, V4, 64" = none ∧
    assembleText "FRD W3, V1, 0, 0, 1" = none := by decide

/-- R73: an encodable but illegal width is assembled as written. -/
theorem test_asm_illegal : (assembleText "FRD W4, V4, 0, 0, 0").map encode =
    some (0x00000281, 0) := by decide

/-! ### Witnesses: states and operands that meet the hypotheses of each statement -/

theorem witness_DecodeAfterEncode :
    Instr.wf (.fis { lastField .wo 63 127 with wbase := 255 } 0xFF) = true := by decide

/-- A command that reads no DATA and one that reads it, each with a DATA word that is not 0. -/
theorem witness_EncodeAfterDecode :
    decode 0x0C082081 7 = .ok (.frd (byteField .rw)) ∧ Cmd.op 0x0C082081 = 0x1 ∧
    decode 0x0C082082 7 = .ok (.fwr (byteField .rw) 7) ∧ Cmd.op 0x0C082082 = 0x2 :=
  ⟨rfl, rfl, rfl, rfl⟩

theorem witness_ReservedSpellingsRaiseRsvd : Running State.reset ∧
    Cmd.op 0x00000010 ≠ 0xF ∧ (0x00000010#32 &&& rowMask (Cmd.op 0x00000010)) ≠
      rowMatch (Cmd.op 0x00000010) ∧
    Cmd.op 0x000800B1 ∈ [0x1, 0x2, 0x3, 0x4] ∧ Cmd.acc 0x000800B1 = 3 := by decide

theorem witness_ReservedOpcodeRaisesOpcode :
    Running State.reset ∧ Cmd.op 0xFFFFFFFF = 0xF := by decide

/-- Each clause of UnreadDataIsIgnored, on two different DATA words. -/
theorem witness_UnreadDataIsIgnored :
    (0x1FF#64 ≠ 0xFF#64 ∧
      (0x1FF#64).toNat % 2 ^ (8 * Width.bytes .b1) = (0xFF#64).toNat % 2 ^ (8 * Width.bytes .b1) ∧
      (0x1FF#64).toNat % 256 = (0xFF#64).toNat % 256) ∧
    Cmd.op 0x0C082081 ∈ [0x0, 0x1, 0x5, 0x7, 0xC, 0xE] := by decide

theorem witness_StepRunsDecodedCommand :
    (State.reset.sendFirst 0x0C082081 0).inputs = .command 0x0C082081 0 :: [] ∧
      decode 0x0C082081 0 = .ok (.frd (byteField .rw)) ∧ Instr.wf (.frd (byteField .rw)) = true ∧
      State.reset.inputs = [] := ⟨rfl, rfl, rfl, rfl⟩

theorem witness_HaltedDiscardsCommands : haltedState.halted = true ∧
    (haltedState.sendFirst 0 0).inputs = .command 0 0 :: [] := by decide

theorem witness_ErrorActionIsPrecise : Running State.reset ∧
    State.reset.runCommand 0x6000000C 0 = .next (State.reset.raiseError .index 0x6000000C) ∧
    (State.reset.raiseError .index 0x6000000C).halted = true := ⟨rfl, rfl, rfl⟩

/-- One field for each clause of FieldCommandErrors, each at a limit of its check. -/
theorem witness_FieldCommandErrors : Running State.reset ∧
    ¬(1 ≤ (lastField .rw 0 0).bwid ∧ (lastField .rw 0 0).bwid ≤ 64) ∧
    ¬(1 ≤ (lastField .rw 0 65).bwid ∧ (lastField .rw 0 65).bwid ≤ 64) ∧
    (1 ≤ (lastField .rw 1 32).bwid ∧
      ¬((lastField .rw 1 32).boff + (lastField .rw 1 32).bwid ≤ 8 * (lastField .rw 1 32).w.bytes)) ∧
    (({ lastField .rw 0 9 with v := .b1 }).boff + 9 ≤ 8 * Width.bytes .b4 ∧
      ¬(({ lastField .rw 0 9 with v := .b1 }).bwid ≤ 8 * Width.bytes .b1)) ∧
    ¬(({ lastField .rw 0 8 with wbase := 93 }).wbase + Width.bytes .b4 ≤ State.reset.nbuf) ∧
    FieldLegal State.reset.nbuf (lastField .wo 31 1) ∧
    FieldLegal State.reset.nbuf (lastField .ro 0 32) := by decide

theorem witness_OnlyResetEndsTheHalt : haltedState.halted = true ∧
    step (haltedState.sendFirst 0 0) = .next haltedState := ⟨rfl, rfl⟩

theorem witness_SuccessfulRunNeverHalted :
    SuccessfulRun 1 (State.reset.sendFirst 0x0000000E 0) State.reset := ⟨rfl, rfl⟩

/-- ShiftRightIsValueShift and ShiftLeftIsValueShift. -/
theorem witness_shift_lengths : 1 ≤ ([0x81, 0x82] : List Byte).length := by decide

/-- The statements whose one hypothesis is a running state: Shr1bResult, Shl1bResult, ShrResult,
ShlResult, NopResult, ReservedOpFCompletes. -/
theorem witness_running : Running State.reset := rfl

/-- MaskValue and MaskBits. -/
theorem witness_MaskValue : 1 ≤ 1 ∧ 63 + 1 ≤ 8 * 8 := by decide

/-- Each clause of MaskResult at its limit. -/
theorem witness_MaskResult : Running State.reset ∧ MaskLegal .b8 0 64 ∧ MaskLegal .b1 7 1 ∧
    (64 < 65) ∧ 8 * Width.bytes .b8 < 1 + 64 := by decide

theorem witness_TrivialPathIsMaskedPath : MaskLegal .b4 8 8 ∧ 8 ≤ 8 * Width.bytes .b1 ∧
    fieldTrivial (byteField .rw) = true ∧
    ([0x11, 0x22, 0x33, 0x44] : List Byte).length = Width.bytes .b4 ∧
    0xAB < 2 ^ (8 * Width.bytes .b1) := by decide

theorem witness_FieldValueLaw : MaskLegal .b2 4 8 ∧ 8 ≤ 8 * Width.bytes .b1 ∧
    fieldTrivial (crossField .rw) = false ∧
    ([0x5A, 0xC3] : List Byte).length = Width.bytes .b2 ∧ 0xAB < 2 ^ (8 * Width.bytes .b1) := by
  decide

theorem witness_FrdResult : Running State.reset ∧ FieldLegal State.reset.nbuf (lastField .ro 31 1) ∧
    (lastField .ro 31 1).acc ≠ .wo := by decide

theorem witness_FwrAndFwrcResult : Running State.reset ∧ BufferOk State.reset ∧
    FieldLegal State.reset.nbuf (lastField .wo 31 1) ∧ (lastField .wo 31 1).acc ≠ .ro := by decide

theorem witness_FisResult : Running State.reset ∧ FieldLegal State.reset.nbuf (lastField .ro 0 32) ∧
    (lastField .ro 0 32).acc ≠ .wo := by decide

theorem witness_FieldRoundTrip : Running State.reset ∧ BufferOk State.reset ∧
    FieldLegal State.reset.nbuf (crossField .rw) ∧ (crossField .rw).acc = .rw ∧
    exec (.fwr (crossField .rw) 0) State.reset = .next State.reset ∧
    (0#64).toNat % 2 ^ (8 * Width.bytes .b1) =
      (0#64).toNat % 2 ^ (8 * Width.bytes .b1) % 2 ^ 8 :=
  ⟨rfl, by decide, by decide, rfl, rfl, rfl⟩

theorem witness_DisjointFieldsDoNotInterfere : Running State.reset ∧ BufferOk State.reset ∧
    (crossField .wo).acc ≠ .ro ∧ (crossField .ro).acc ≠ .wo ∧
    FieldLegal State.reset.nbuf (crossField .wo) ∧
    FieldLegal State.reset.nbuf { crossField .ro with boff := 12, bwid := 4 } ∧
    fieldStart (crossField .wo) + (crossField .wo).bwid ≤
      fieldStart { crossField .ro with boff := 12, bwid := 4 } ∧
    exec (.fwr (crossField .wo) 0) State.reset = .next State.reset :=
  ⟨rfl, by decide, by decide, by decide, by decide, by decide, by decide, rfl⟩

theorem witness_RrdResult : Running State.reset ∧ WindowLegal State.reset.nbuf 88 .b8 ∧
    ¬WindowLegal State.reset.nbuf 89 .b8 := by decide

theorem witness_RwrResult : Running State.reset ∧ BufferOk State.reset ∧ WindowLegal State.reset.nbuf 95 .b1 ∧
    ¬WindowLegal State.reset.nbuf 96 .b1 := by decide

theorem witness_BrdResult_BwrResult : Running State.reset ∧ BufferOk State.reset ∧
    95 < State.reset.nbuf ∧ State.reset.nbuf ≤ 96 := by decide

theorem witness_ClrResult : Running (holding 95 [1]) ∧ BufferOk (holding 95 [1]) := by decide

theorem witness_OverlappingReadsAgree : Running State.reset ∧
    WindowLegal State.reset.nbuf 88 .b8 ∧ 88 ≤ 94 ∧ 94 + Width.bytes .b2 ≤ 88 + Width.bytes .b8 := by decide

theorem witness_DisjointWindowsDoNotInterfere : Running State.reset ∧ BufferOk State.reset ∧
    exec (.rwr .b4 4 0) State.reset = .next State.reset ∧ WindowLegal State.reset.nbuf 4 .b4 ∧
    WindowLegal State.reset.nbuf 8 .b4 ∧ 4 + Width.bytes .b4 ≤ 8 ∧ 3 < State.reset.nbuf ∧
    ¬InWindow 4 .b4 3 := ⟨rfl, by decide, rfl, by decide, by decide, by decide, by decide, by decide⟩

theorem witness_CommandsWriteOnlyTheirRegisters :
    exec (.mask .b1 0 8) State.reset = .next (State.reset.setResult 0xFF) := rfl

theorem witness_BytesOutsideAreKept : BufferOk (holding 9 [5]) ∧
    exec (.bwr 8 0) (holding 9 [5]) = .next (holding 9 [5]) := ⟨by decide, rfl⟩

theorem witness_ResetAction : BufferOk (haltedState.setInputs [.reset .zero]) ∧
    (haltedState.setInputs [.reset .zero]).inputs = .reset .zero :: [] := by decide

theorem witness_PowerOnNoinitHoldsBuf0 : ([7, 0, 9] : List Byte).length = 3 := rfl

theorem witness_ResetInFlightHasTwoOutcomes :
    BufferOk ((holding 0 [1]).setInputs [.resetInFlight .noinit 0x0000000E 0]) ∧
    (holding 0 [1]).runCommand 0x0000000E 0 = .next State.reset := ⟨by decide, rfl⟩

theorem witness_StepKeepsBufferOk : BufferOk ((holding 0 [1]).sendFirst 0x0000000E 0) ∧
    step ((holding 0 [1]).sendFirst 0x0000000E 0) = .next State.reset := ⟨by decide, rfl⟩

theorem witness_StepKeepsStatusOk : StatusOk (State.reset.sendFirst 0xF 0) ∧
    step (State.reset.sendFirst 0xF 0) = .next haltedState := ⟨by decide, rfl⟩

theorem witness_StepKeepsErrorRecord : ErrorRecordOk haltedState ∧ step haltedState = .next haltedState :=
  ⟨⟨by decide, fun _ => ⟨.opcode, rfl, rfl⟩⟩, rfl⟩

theorem witness_PowerOnMeetsInvariants : 1 ≤ 1 ∧ 1 ≤ 256 ∧ 256 ≤ 256 := by decide

/-- Each check of the assembler at its limit and one past it, and the defaults of R73. -/
theorem witness_AssembledLinesDecodeBack :
    assemble (.rrd .b8 255) = some (.rrd .b8 255) ∧ assemble (.rrd .b8 256) = none ∧
    assemble (.shl .b1 .b2 63 none) = some (.shl .b1 .b2 63 0) ∧
    assemble (.shl .b1 .b2 64 none) = none ∧
    assemble (.mask .b4 0 127) = some (.mask .b4 0 127) ∧ assemble (.mask .b4 0 128) = none ∧
    assemble (.shr1b (some 0xFFFFFFFFFFFFFFFF)) = some (.shr1b 0xFFFFFFFFFFFFFFFF) ∧
    assemble (.shr1b (some 0x10000000000000000)) = none ∧
    assemble (.frd none .b4 .b1 12 8 8) = some (.frd (byteField .rw)) := by decide

theorem witness_AssembledWordsFollowTheLayout :
    255 ≤ 255 ∧ 63 ≤ 63 ∧ 127 ≤ 127 ∧ 0xFFFFFFFFFFFFFFFF < 2 ^ 64 := by decide

theorem witness_PseudoInstructionsMean : Running State.reset ∧ BufferOk State.reset ∧
    WindowLegal State.reset.nbuf 88 .b8 ∧ 63 < 8 * Width.bytes .b8 ∧ (none : Option Access) ≠ some .ro ∧
    (none : Option Access) ≠ some .wo := by decide

end Sys2Proof.Tests
end

/-! The scope family (00_scope.md): BUF stays canonical and below NBUF on every step, and a
power-on reset meets the invariants. Every command is one call of `State.command`; every operation
that alters BUF stores a byte sequence that ends by NBUF. -/

namespace Sys2Proof.Machine

/-! ### Lengths of the byte sequences a field write stores -/

@[simp] theorem resize_length (m : Nat) (bs : List Byte) : (resize m bs).length = m := by
  induction m generalizing bs with
  | zero => rfl
  | succ m ih => cases bs <;> simp [resize, ih]

@[simp] theorem shiftLeftRound_length (cin : Bool) (bs : List Byte) :
    (shiftLeftRound cin bs).length = bs.length := by
  induction bs generalizing cin with
  | nil => rfl
  | cons b bs ih => simp [shiftLeftRound, ih]

@[simp] theorem shiftLeft_length (bs : List Byte) (n : Nat) :
    (shiftLeft bs n).length = bs.length := by
  induction n generalizing bs with
  | zero => rfl
  | succ n ih => simp [shiftLeft, ih]

@[simp] theorem maskFrom_length (len skip start rem : Nat) :
    (maskFrom len skip start rem).length = len := by
  induction len generalizing skip start rem with
  | zero => rfl
  | succ len ih => cases skip <;> simp [maskFrom, ih]

@[simp] theorem mask_length (w boff bwid : Nat) : (mask w boff bwid).length = w :=
  maskFrom_length ..

/-- A merge is as long as its old bytes where the new bytes and the mask reach that far. -/
theorem mergeBytes_length (old new mask : List Byte) (hn : new.length = old.length)
    (hm : mask.length = old.length) : (mergeBytes old new mask).length = old.length := by
  induction old generalizing new mask with
  | nil => rfl
  | cons o os ih =>
    obtain ⟨n, ns, rfl⟩ := List.exists_cons_of_length_eq_add_one hn
    obtain ⟨m, ms, rfl⟩ := List.exists_cons_of_length_eq_add_one hm
    simp only [List.length_cons, Nat.add_right_cancel_iff] at hn hm
    simp [mergeBytes, ih ns ms hn hm]

/-- R114 keeps the window's length where the field ends inside it and its value inside V. -/
theorem trivWrite_length {win : List Byte} {boff bwid v : Nat} (value : Nat)
    (hwin : boff + bwid ≤ 8 * win.length) (hv : bwid ≤ 8 * v) :
    (trivWrite win boff bwid v value).length = win.length := by
  simp only [trivWrite, byteOffset, List.length_append, List.length_take, List.length_drop,
    bytesOf_length]
  omega

/-- R115 keeps the window's length. -/
theorem maskedWrite_length {win : List Byte} {w : Nat} (boff bwid v value : Nat)
    (hwin : win.length = w) : (maskedWrite win w boff bwid v value).length = w := by
  subst hwin
  exact mergeBytes_length _ _ _ (by simp) (by simp)

/-- A write of a legal field keeps the window's length, on either path (R111). -/
theorem fieldWrite_length {nbuf : Nat} {f : Field} {win : List Byte} (value : Nat)
    (hf : FieldLegal nbuf f) (hwin : win.length = f.w.bytes) :
    (fieldWrite f win value).length = f.w.bytes := by
  obtain ⟨⟨-, -, hrange⟩, hvalue, -⟩ := hf
  rw [fieldWrite]
  split
  · rw [trivWrite_length value (by omega) hvalue, hwin]
  · exact maskedWrite_length _ _ _ _ hwin

/-! ### Every command in one shape -/

/-- What a command does once its checks have passed; `exec_eq_command` ties it to `exec`. -/
def instrEffect : Instr → State → State
  | .nop, s => s
  | .frd f, s => (s.setResult (zext64 (s.fieldValue f))).setTriv (fieldTrivial f)
  | .fwr f data, s => s.storeField f data
  | .fwrc f data, s => s.storeField f data
  | .fis f data, s =>
    (s.setFlag (flagEqual (s.fieldValue f) (dataValue f.v data))).setTriv (fieldTrivial f)
  | .rrd w wbase, s => s.setResult (zext64 (s.buf.readVal wbase w.bytes))
  | .rwr w wbase data, s => s.setBuf (s.buf.writeVal wbase w.bytes (dataValue w data))
  | .mask w boff bwid, s => s.setResult (zext64 (val (mask w.bytes boff bwid)))
  | .shr w v cnt data, s =>
    s.setResult (zext64 (val (resize v.bytes (shiftRight (dataBytes w data) cnt))))
  | .shl w v cnt data, s =>
    s.setResult (zext64 (val (shiftLeft (resize w.bytes (dataBytes v data)) cnt)))
  | .shr1b data, s =>
    (s.setResult (zext64 (shr1 (dataByte data)).1.toNat)).setFlag (flagCarry (shr1 (dataByte data)))
  | .shl1b data, s =>
    (s.setResult (zext64 (shl1 (dataByte data)).1.toNat)).setFlag (flagCarry (shl1 (dataByte data)))
  | .brd idx, s => s.setResult (zext64 (s.buf.readByte idx).toNat)
  | .bwr idx data, s => s.setBuf (s.buf.writeByte idx (dataByte data))
  | .clr, s => s.setBuf (s.buf.zeroed s.nbuf)
  | .reservedOpF _, s => s

/-- Every meaning is one `State.command`: its own word, its first broken check, its effect. -/
theorem exec_eq_command (i : Instr) (s : State) :
    exec i s = s.command (encodeCmd i) (instrError s.nbuf i) (instrEffect i) := by
  cases i <;> rfl

/-- Everything a meaning can answer (R169 to R171). -/
theorem exec_cases {i : Instr} {s t : State} (h : exec i s = .next t) :
    (s.halted = true ∧ t = s) ∨
      (∃ e, Running s ∧ instrError s.nbuf i = some e ∧ t = s.raiseError e (encodeCmd i)) ∨
      (Running s ∧ instrError s.nbuf i = none ∧ t = instrEffect i s) :=
  State.command_cases (exec_eq_command i s ▸ h)

/-- Everything the port can answer to a command (R162, R171). -/
theorem State.runCommand_cases {s t : State} {c : Cmd} {d : Word64}
    (h : s.runCommand c d = .next t) :
    (s.halted = true ∧ t = s) ∨
      (∃ e, Running s ∧ decode c d = .error e ∧ t = s.raiseError .rsvd c) ∨
      (∃ i, Running s ∧ decode c d = .ok i ∧ exec i s = .next t) := by
  cases hs : s.halted with
  | true =>
    rw [State.runCommand_halted hs] at h
    injection h with h
    exact .inl ⟨rfl, h.symm⟩
  | false =>
    cases hd : decode c d with
    | error e =>
      rw [State.runCommand_error hs hd] at h
      injection h with h
      exact .inr (.inl ⟨e, hs, rfl, h.symm⟩)
    | ok i => exact .inr (.inr ⟨i, hs, rfl, State.runCommand_ok hs hd ▸ h⟩)

/-! ### What keeps BUF sound -/

/-- From `s` to `t` NBUF is as it was, and a sound BUF stays sound (R5, R30, R40). -/
def BufferKept (s t : State) : Prop := t.nbuf = s.nbuf ∧ (BufferOk s → BufferOk t)

theorem BufferKept.trans {s t u : State} (hst : BufferKept s t) (htu : BufferKept t u) :
    BufferKept s u :=
  ⟨htu.1.trans hst.1, fun hs => htu.2 (hst.2 hs)⟩

/-- Whatever leaves BUF and NBUF alone keeps BUF sound. -/
theorem BufferKept.of_buf_eq {s t : State} (hn : t.nbuf = s.nbuf) (hb : t.buf = s.buf) :
    BufferKept s t :=
  ⟨hn, fun hs => by rwa [BufferOk, hn, hb]⟩

/-- Storing a byte sequence that ends by NBUF keeps BUF sound. -/
theorem BufferKept.of_writeBytes {s t : State} {a : Nat} {bs : List Byte} (hn : t.nbuf = s.nbuf)
    (hb : t.buf = s.buf.writeBytes a bs) (hle : a + bs.length ≤ s.nbuf) : BufferKept s t := by
  refine ⟨hn, fun ⟨hmin, hmax, hwf, hbelow⟩ => ?_⟩
  rw [BufferOk, hn, hb]
  refine ⟨hmin, hmax, Memory.wf_writeBytes _ _ _ hwf, fun c hc => ?_⟩
  rcases Memory.mem_writeBytes _ _ _ c hc with hold | ⟨-, hlt⟩
  · exact hbelow c hold
  · omega

theorem bufferKept_setBuf_writeBytes {s : State} {a : Nat} {bs : List Byte}
    (hle : a + bs.length ≤ s.nbuf) : BufferKept s (s.setBuf (s.buf.writeBytes a bs)) :=
  .of_writeBytes rfl rfl hle

/-- R145, R183: zeroing the indices below NBUF keeps BUF sound. -/
theorem bufferKept_setBuf_zeroed (s : State) : BufferKept s (s.setBuf (s.buf.zeroed s.nbuf)) :=
  bufferKept_setBuf_writeBytes (by simp)

/-- R181, R183: a reset leaves BUF, or zeroes exactly the indices below NBUF. -/
theorem bufferKept_applyReset (s : State) (mode : ResetMode) :
    BufferKept s (s.applyReset mode) := by
  cases mode with
  | zero => exact (bufferKept_setBuf_zeroed s).trans (.of_buf_eq rfl rfl)
  | noinit => exact .of_buf_eq rfl rfl

/-- A field write that passed its checks stores exactly its window's bytes (R119, R164 to R166). -/
theorem bufferKept_storeField {s : State} {f : Field} (data : Word64)
    (h : fieldError s.nbuf f .write = none) : BufferKept s (s.storeField f data) := by
  obtain ⟨hf, -⟩ := (fieldError_eq_none_iff _ _ _).mp h
  have hlen := fieldWrite_length (dataValue f.v data) hf
    (Memory.readBytes_length s.buf f.wbase f.w.bytes)
  exact .of_writeBytes rfl rfl (hlen ▸ hf.2.2)

/-- The effect of a command that passed its checks keeps BUF sound: only FWR, FWRC, RWR, BWR and CLR
store, and each below NBUF. -/
theorem bufferKept_instrEffect {i : Instr} {s : State} (h : instrError s.nbuf i = none) :
    BufferKept s (instrEffect i s) := by
  cases i with
  | fwr f data => exact bufferKept_storeField data h
  | fwrc f data => exact bufferKept_storeField data h
  | rwr w wbase data =>
    have hwin : WindowLegal s.nbuf wbase w := (windowError_eq_none_iff ..).mp h
    exact bufferKept_setBuf_writeBytes (by rwa [bytesOf_length])
  | bwr idx data =>
    have hidx : idx < s.nbuf := (indexError_eq_none_iff ..).mp h
    exact bufferKept_setBuf_writeBytes (bs := [dataByte data]) hidx
  | clr => exact bufferKept_setBuf_zeroed s
  | nop | frd | fis | rrd | mask | shr | shl | shr1b | shl1b | brd | reservedOpF =>
    exact .of_buf_eq rfl rfl

/-- A meaning keeps BUF sound: discarded, refused by a check, or carried out. -/
theorem bufferKept_exec {i : Instr} {s t : State} (h : exec i s = .next t) : BufferKept s t := by
  obtain ⟨-, rfl⟩ | ⟨e, -, -, rfl⟩ | ⟨-, hok, rfl⟩ := exec_cases h
  · exact .of_buf_eq rfl rfl
  · exact .of_buf_eq rfl rfl
  · exact bufferKept_instrEffect hok

theorem bufferKept_runCommand {s t : State} {c : Cmd} {d : Word64}
    (h : s.runCommand c d = .next t) : BufferKept s t := by
  obtain ⟨-, rfl⟩ | ⟨e, -, -, rfl⟩ | ⟨i, -, -, hi⟩ := State.runCommand_cases h
  · exact .of_buf_eq rfl rfl
  · exact .of_buf_eq rfl rfl
  · exact bufferKept_exec hi

/-- R185: a reset during a command keeps BUF sound in both of its outcomes. -/
theorem bufferKept_resetDuring {s t : State} {mode : ResetMode} {c : Cmd} {d : Word64}
    (h : s.resetDuring mode c d = .next t) : BufferKept s t := by
  have hcount : BufferKept s s.countChoice := .of_buf_eq rfl rfl
  obtain ⟨u, hu, rfl⟩ | rfl := State.resetDuring_cases h
  · exact (hcount.trans (bufferKept_runCommand hu)).trans (bufferKept_applyReset u mode)
  · exact hcount.trans (bufferKept_applyReset _ mode)

/-- Every action of the host keeps BUF sound. -/
theorem bufferKept_step {s t : State} (h : step s = .next t) : BufferKept s t := by
  have hpop (rest : List HostAction) : BufferKept s (s.setInputs rest) := .of_buf_eq rfl rfl
  obtain ⟨-, rfl⟩ | ⟨c, d, rest, -, hcmd⟩ | ⟨mode, rest, -, rfl⟩ | ⟨mode, c, d, rest, -, hres⟩ :=
    step_cases h
  · exact .of_buf_eq rfl rfl
  · exact (hpop rest).trans (bufferKept_runCommand hcmd)
  · exact (hpop rest).trans (bufferKept_applyReset _ mode)
  · exact (hpop rest).trans (bufferKept_resetDuring hres)

/-- Settles O48: one case per action of the host, each of which stores below NBUF only. -/
theorem stepKeepsBufferOk : Obligations.StepKeepsBufferOk := by
  intro s t hs h
  obtain ⟨hn, hok⟩ := bufferKept_step h
  exact ⟨hok hs, hn⟩

/-! ### The invariants after a reset -/

/-- R180: a reset ends the halt. -/
theorem running_applyReset (s : State) (mode : ResetMode) : Running (s.applyReset mode) := by
  simp [Running, State.halted, statusHalt]

/-- After a reset STATUS is 0, which is legal (R180, R184). -/
theorem statusOk_applyReset (s : State) (mode : ResetMode) : StatusOk (s.applyReset mode) := by
  have hrunning := running_applyReset s mode
  rw [StatusOk, State.applyReset_status, hrunning]
  decide

/-- After a reset ERRCMD is 0 and BFC runs, so there is no error to record (R29, R184). -/
theorem errorRecordOk_applyReset (s : State) (mode : ResetMode) :
    ErrorRecordOk (s.applyReset mode) :=
  ⟨fun _ => rfl, fun hhalted => by simp [running_applyReset] at hhalted⟩

/-- R5, R182: BUF at power-up, BUF0's bytes below NBUF, is sound for every NBUF of its range. -/
theorem bufferOk_powerUp {nbuf : Nat} (buf0 : List Byte) (hmin : 1 ≤ nbuf) (hmax : nbuf ≤ 256) :
    BufferOk { State.reset with
      buf := Memory.writeBytes [] 0 (buf0.take nbuf)
      nbuf := nbuf } := by
  have hstore := bufferKept_setBuf_writeBytes (s := { State.reset with nbuf := nbuf }) (a := 0)
    (bs := buf0.take nbuf) (by simp)
  exact hstore.2 ⟨hmin, hmax, Memory.wf_reset, by simp [State.reset]⟩

/-- Settles O52: a reset of either mode keeps BUF sound, and clears STATUS and ERRCMD. -/
theorem powerOnMeetsInvariants : Obligations.PowerOnMeetsInvariants := by
  intro nbuf buf0 mode hmin hmax
  exact ⟨(bufferKept_applyReset _ mode).2 (bufferOk_powerUp buf0 hmin hmax),
    statusOk_applyReset _ mode, errorRecordOk_applyReset _ mode⟩

end Sys2Proof.Machine

/-! The state family (10_state.md): what each command may write, and that STATUS and the error
record stay true on every step. A word is tied to its error by `encodeCmd_of_decode`: what a meaning
puts in ERRCMD is the word it was decoded from (log 8). -/

namespace Sys2Proof

/-! ### The DATA word of a decoded command -/

/-- The same command with `d` as the DATA it reads, if it reads any (R72). -/
def Instr.withData (d : Word64) : Instr → Instr
  | .fwr f _ => .fwr f d
  | .fwrc f _ => .fwrc f d
  | .fis f _ => .fis f d
  | .rwr w wbase _ => .rwr w wbase d
  | .shr w v cnt _ => .shr w v cnt d
  | .shl w v cnt _ => .shl w v cnt d
  | .shr1b _ => .shr1b d
  | .shl1b _ => .shl1b d
  | .bwr idx _ => .bwr idx d
  | i => i

/-- DATA decides neither whether a word decodes nor anything but the DATA of its command (R71). -/
theorem decode_map_withData (c : Cmd) (d e : Word64) :
    (decode c d).map (Instr.withData e) = decode c e := by
  simp only [decode]
  split
  · simp only [decodeRow]
    split
    case h_2 | h_3 | h_4 | h_5 => cases decodeField c <;> rfl
    all_goals rfl
  · rfl

/-! ### The word of a decoded command (log 8) -/

/-- Where the mask is all ones, a masked word shows the word's own bits. -/
theorem Cmd.extract_of_masked {c m r : Cmd} (h : c &&& m = r) {start len : Nat}
    (hm : m.extractLsb' start len = BitVec.allOnes len) :
    c.extractLsb' start len = r.extractLsb' start len := by
  rw [← h, BitVec.extractLsb'_and, hm, BitVec.and_allOnes]

/-- Above OP the fixed bits of every row are 0 (R69). -/
theorem extract_rowMatch {op start : Nat} (len : Nat) (hop : op < 16) (hstart : 4 ≤ start) :
    ((rowMatch op).extractLsb' start len).toNat = 0 := by
  have hpow : 2 ^ 4 ≤ 2 ^ start := Nat.pow_le_pow_right (by decide) hstart
  have hsmall : op % 2 ^ 32 / 2 ^ start = 0 := Nat.div_eq_of_lt (by omega)
  rw [rowMatch, BitVec.extractLsb'_toNat, BitVec.toNat_ofNat, Nat.shiftRight_eq_div_pow, hsmall,
    Nat.zero_mod]

theorem Cmd.op_lt (c : Cmd) : c.op < 16 := (c.extractLsb' 0 4).isLt

/-- A field that lies in the fixed bits of its word's row is 0 (R69). -/
theorem Cmd.fixed_field_eq_zero {c m : Cmd} (start len : Nat) (h : c &&& m = rowMatch c.op)
    (hm : m.extractLsb' start len = BitVec.allOnes len) (hstart : 4 ≤ start) :
    (c.extractLsb' start len).toNat = 0 := by
  rw [Cmd.extract_of_masked h hm, extract_rowMatch len c.op_lt hstart]

/-- A word with RSV = 0 is its own fields, packed (R61). -/
theorem packCmd_fields {c : Cmd} (hrsv : (c.extractLsb' 23 1).toNat = 0) :
    packCmd c.op c.acc c.wsz c.vsz c.boff c.bwid c.wbase = c := by
  apply BitVec.eq_of_toNat_eq
  have hlt := c.isLt
  simp only [BitVec.extractLsb'_toNat, Nat.shiftRight_eq_div_pow] at hrsv
  simp only [packCmd_toNat, Cmd.op, Cmd.acc, Cmd.wsz, Cmd.vsz, Cmd.boff, Cmd.bwid, Cmd.wbase,
    BitVec.extractLsb'_toNat, Nat.shiftRight_eq_div_pow]
  omega

theorem code_widthOfCode {n : Nat} (h : n < 4) : (widthOfCode n).code = n := by
  interval_cases n <;> rfl

@[simp] theorem Cmd.code_wsz (c : Cmd) : (widthOfCode c.wsz).code = c.wsz :=
  code_widthOfCode (c.extractLsb' 6 2).isLt

@[simp] theorem Cmd.code_vsz (c : Cmd) : (widthOfCode c.vsz).code = c.vsz :=
  code_widthOfCode (c.extractLsb' 8 2).isLt

theorem code_of_accessOfCode {n : Nat} {a : Access} (h : accessOfCode n = some a) :
    a.code = n := by
  simp only [accessOfCode] at h
  split at h <;> cases h <;> rfl

/-- A field command's word is the word of the field it names. -/
theorem packField_of_row {c : Cmd} {op : Nat} {f : Field} (hop : c.op = op)
    (h : c &&& 0x0080000F = rowMatch op) (hf : decodeField c = .ok f) : packField op f = c := by
  subst hop
  have hrsv := Cmd.fixed_field_eq_zero 23 1 h (by decide) (by decide)
  simp only [decodeField] at hf
  split at hf
  next acc hacc =>
    injection hf with hf
    simpa [packField, ← hf, code_of_accessOfCode hacc] using packCmd_fields hrsv
  next => cases hf

/-- RRD and RWR: every field but WSZ and WBASE is fixed. -/
theorem packCmd_of_window_row {c : Cmd} {op : Nat} (hop : c.op = op)
    (h : c &&& 0x00FFFF3F = rowMatch op) : packCmd op 0 c.wsz 0 0 0 c.wbase = c := by
  subst hop
  have hacc : c.acc = 0 := Cmd.fixed_field_eq_zero 4 2 h (by decide) (by decide)
  have hvsz : c.vsz = 0 := Cmd.fixed_field_eq_zero 8 2 h (by decide) (by decide)
  have hboff : c.boff = 0 := Cmd.fixed_field_eq_zero 10 6 h (by decide) (by decide)
  have hbwid : c.bwid = 0 := Cmd.fixed_field_eq_zero 16 7 h (by decide) (by decide)
  have hrsv := Cmd.fixed_field_eq_zero 23 1 h (by decide) (by decide)
  simpa only [hacc, hvsz, hboff, hbwid] using packCmd_fields hrsv

/-- MASK: every field but WSZ, BOFF and BWID is fixed. -/
theorem packCmd_of_mask_row {c : Cmd} {op : Nat} (hop : c.op = op)
    (h : c &&& 0xFF80033F = rowMatch op) : packCmd op 0 c.wsz 0 c.boff c.bwid 0 = c := by
  subst hop
  have hacc : c.acc = 0 := Cmd.fixed_field_eq_zero 4 2 h (by decide) (by decide)
  have hvsz : c.vsz = 0 := Cmd.fixed_field_eq_zero 8 2 h (by decide) (by decide)
  have hwbase : c.wbase = 0 := Cmd.fixed_field_eq_zero 24 8 h (by decide) (by decide)
  have hrsv := Cmd.fixed_field_eq_zero 23 1 h (by decide) (by decide)
  simpa only [hacc, hvsz, hwbase] using packCmd_fields hrsv

/-- SHR and SHL: every field but WSZ, VSZ and the count is fixed. -/
theorem packCmd_of_shift_row {c : Cmd} {op : Nat} (hop : c.op = op)
    (h : c &&& 0xFFFF003F = rowMatch op) : packCmd op 0 c.wsz c.vsz c.boff 0 0 = c := by
  subst hop
  have hacc : c.acc = 0 := Cmd.fixed_field_eq_zero 4 2 h (by decide) (by decide)
  have hbwid : c.bwid = 0 := Cmd.fixed_field_eq_zero 16 7 h (by decide) (by decide)
  have hwbase : c.wbase = 0 := Cmd.fixed_field_eq_zero 24 8 h (by decide) (by decide)
  have hrsv := Cmd.fixed_field_eq_zero 23 1 h (by decide) (by decide)
  simpa only [hacc, hbwid, hwbase] using packCmd_fields hrsv

/-- BRD and BWR: every field but the index is fixed. -/
theorem packCmd_of_index_row {c : Cmd} {op : Nat} (hop : c.op = op)
    (h : c &&& 0x00FFFFFF = rowMatch op) : packCmd op 0 0 0 0 0 c.wbase = c := by
  subst hop
  have hacc : c.acc = 0 := Cmd.fixed_field_eq_zero 4 2 h (by decide) (by decide)
  have hwsz : c.wsz = 0 := Cmd.fixed_field_eq_zero 6 2 h (by decide) (by decide)
  have hvsz : c.vsz = 0 := Cmd.fixed_field_eq_zero 8 2 h (by decide) (by decide)
  have hboff : c.boff = 0 := Cmd.fixed_field_eq_zero 10 6 h (by decide) (by decide)
  have hbwid : c.bwid = 0 := Cmd.fixed_field_eq_zero 16 7 h (by decide) (by decide)
  have hrsv := Cmd.fixed_field_eq_zero 23 1 h (by decide) (by decide)
  simpa only [hacc, hwsz, hvsz, hboff, hbwid] using packCmd_fields hrsv

/-- A command with no operand but DATA: the whole word is fixed. -/
theorem rowMatch_of_bare_row {c : Cmd} {op : Nat} (h : c &&& 0xFFFFFFFF = rowMatch op) :
    rowMatch op = c :=
  h.symm.trans BitVec.and_allOnes

/-- The word of OP = 0xF is its 28 other bits, then OP (R70). -/
theorem append_opF {c : Cmd} (hop : c.op = 0xF) : c.extractLsb' 4 28 ++ 0xF#4 = c := by
  have hlow : c.extractLsb' 0 4 = 0xF#4 := BitVec.eq_of_toNat_eq hop
  rw [← hlow]
  exact (BitVec.extractLsb'_append_extractLsb'_eq_extractLsb' rfl).trans BitVec.extractLsb'_eq_self

theorem decodeField_map_eq_ok {c : Cmd} {g : Field → Instr} {i : Instr}
    (h : (decodeField c).map g = .ok i) : ∃ f, decodeField c = .ok f ∧ g f = i := by
  cases hf : decodeField c with
  | error e => rw [hf] at h; cases h
  | ok f => rw [hf] at h; injection h with h; exact ⟨f, rfl, h⟩

/-- A row's command encodes to the word it was read from, its fixed bits being right. -/
theorem encodeCmd_of_decodeRow {c : Cmd} {d : Word64} {i : Instr}
    (hrow : c &&& rowMask c.op = rowMatch c.op) (h : decodeRow c d = .ok i) : encodeCmd i = c := by
  simp only [decodeRow] at h
  split at h
  -- FRD, FWR, FWRC, FIS
  case h_2 hop | h_3 hop | h_4 hop | h_5 hop =>
    obtain ⟨f, hf, rfl⟩ := decodeField_map_eq_ok h
    rw [hop] at hrow
    exact packField_of_row hop hrow hf
  all_goals
    injection h with h
    subst h
  -- NOP, SHR1B, SHL1B, CLR
  case h_1 hop | h_11 hop | h_12 hop | h_15 hop =>
    rw [hop] at hrow
    exact rowMatch_of_bare_row hrow
  -- RRD, RWR
  case h_6 hop | h_7 hop =>
    rw [hop] at hrow
    simpa [encodeCmd] using packCmd_of_window_row hop hrow
  -- MASK
  case h_8 hop =>
    rw [hop] at hrow
    simpa [encodeCmd] using packCmd_of_mask_row hop hrow
  -- SHR, SHL
  case h_9 hop | h_10 hop =>
    rw [hop] at hrow
    simpa [encodeCmd] using packCmd_of_shift_row hop hrow
  -- BRD, BWR
  case h_13 hop | h_14 hop =>
    rw [hop] at hrow
    exact packCmd_of_index_row hop hrow
  -- OP = 0xF, the only number below 16 that is left
  case h_16 =>
    have hlt := c.op_lt
    have hop : c.op = 0xF := by grind
    exact append_opF hop

/-- A decoded command encodes to the word it was decoded from (R61, R69, R71). -/
theorem encodeCmd_of_decode {c : Cmd} {d : Word64} {i : Instr} (h : decode c d = .ok i) :
    encodeCmd i = c := by
  simp only [decode] at h
  split at h
  next hrow => exact encodeCmd_of_decodeRow hrow h
  next => cases h

end Sys2Proof

namespace Sys2Proof.Machine

/-! ### The fields of STATUS after a write (R25) -/

@[simp] theorem statusHalt_withTriv (st : BitVec 32) (t : Bool) :
    statusHalt (withTriv st t) = statusHalt st := by
  have hlt := t.toNat_lt
  rw [statusHalt_eq, statusHalt_eq, withTriv_toNat, decide_eq_decide]
  omega

@[simp] theorem statusEcode_withTriv (st : BitVec 32) (t : Bool) :
    statusEcode (withTriv st t) = statusEcode st := by
  have hlt := t.toNat_lt
  apply BitVec.eq_of_toNat_eq
  rw [statusEcode_toNat, statusEcode_toNat, withTriv_toNat]
  omega

@[simp] theorem statusTriv_withTriv (st : BitVec 32) (t : Bool) :
    statusTriv (withTriv st t) = t := by
  rw [statusTriv_eq, withTriv_toNat]
  cases t <;> simp <;> omega

@[simp] theorem statusReserved_withTriv (st : BitVec 32) (t : Bool) :
    statusReserved (withTriv st t) = statusReserved st := by
  have hlt := t.toNat_lt
  apply BitVec.eq_of_toNat_eq
  rw [statusReserved_toNat, statusReserved_toNat, withTriv_toNat]
  omega

@[simp] theorem statusHalt_withError (st : BitVec 32) (e : ErrCode) :
    statusHalt (withError st e) = true := by
  rw [statusHalt_eq, withError_toNat, decide_eq_true_iff]
  omega

@[simp] theorem statusEcode_withError (st : BitVec 32) (e : ErrCode) :
    statusEcode (withError st e) = errNumber e := by
  have hlt := (errNumber e).isLt
  apply BitVec.eq_of_toNat_eq
  rw [statusEcode_toNat, withError_toNat]
  omega

@[simp] theorem statusTriv_withError (st : BitVec 32) (e : ErrCode) :
    statusTriv (withError st e) = statusTriv st := by
  have hlt := (errNumber e).isLt
  rw [statusTriv_eq, statusTriv_eq, withError_toNat, decide_eq_decide]
  omega

@[simp] theorem statusReserved_withError (st : BitVec 32) (e : ErrCode) :
    statusReserved (withError st e) = statusReserved st := by
  have hlt := (errNumber e).isLt
  apply BitVec.eq_of_toNat_eq
  rw [statusReserved_toNat, statusReserved_toNat, withError_toNat]
  omega

/-- Settles O11: STATUS after the write, field by field. -/
theorem trivWriteTouchesTrivOnly : Obligations.TrivWriteTouchesTrivOnly := fun st t =>
  ⟨statusTriv_withTriv st t, statusHalt_withTriv st t, statusEcode_withTriv st t,
    statusReserved_withTriv st t⟩

/-! ### What a completing command leaves alone -/

/-- From `s` to `t` nothing changed that no completing command may write: all of STATUS but TRIV,
ERRCMD, NBUF, the host's list and the count of choices. -/
structure ControlKept (s t : State) : Prop where
  halted : t.halted = s.halted
  ecode : statusEcode t.status = statusEcode s.status
  reserved : statusReserved t.status = statusReserved s.status
  errcmd : t.errcmd = s.errcmd
  nbuf : t.nbuf = s.nbuf
  inputs : t.inputs = s.inputs
  choices : t.choices = s.choices

theorem ControlKept.refl (s : State) : ControlKept s s := ⟨rfl, rfl, rfl, rfl, rfl, rfl, rfl⟩

theorem controlKept_setBuf (s : State) (m : Memory) : ControlKept s (s.setBuf m) :=
  ⟨rfl, rfl, rfl, rfl, rfl, rfl, rfl⟩

theorem controlKept_setResult (s : State) (v : Word64) : ControlKept s (s.setResult v) :=
  ⟨rfl, rfl, rfl, rfl, rfl, rfl, rfl⟩

theorem controlKept_setFlag (s : State) (f : Bool) : ControlKept s (s.setFlag f) :=
  ⟨rfl, rfl, rfl, rfl, rfl, rfl, rfl⟩

/-- R28: a write of TRIV leaves the rest of STATUS alone. -/
theorem controlKept_setTriv (s : State) (t : Bool) : ControlKept s (s.setTriv t) where
  halted := statusHalt_withTriv s.status t
  ecode := statusEcode_withTriv s.status t
  reserved := statusReserved_withTriv s.status t
  errcmd := rfl
  nbuf := rfl
  inputs := rfl
  choices := rfl

theorem ControlKept.trans {s t u : State} (hst : ControlKept s t) (htu : ControlKept t u) :
    ControlKept s u where
  halted := htu.halted.trans hst.halted
  ecode := htu.ecode.trans hst.ecode
  reserved := htu.reserved.trans hst.reserved
  errcmd := htu.errcmd.trans hst.errcmd
  nbuf := htu.nbuf.trans hst.nbuf
  inputs := htu.inputs.trans hst.inputs
  choices := htu.choices.trans hst.choices

/-- Every effect is made of writes of BUF, RESULT, FLAG and TRIV. -/
theorem controlKept_instrEffect (i : Instr) (s : State) : ControlKept s (instrEffect i s) := by
  cases i with
  | nop | reservedOpF => exact .refl s
  | frd => exact (controlKept_setResult s _).trans (controlKept_setTriv _ _)
  | fwr | fwrc => exact (controlKept_setBuf s _).trans (controlKept_setTriv _ _)
  | fis => exact (controlKept_setFlag s _).trans (controlKept_setTriv _ _)
  | shr1b | shl1b => exact (controlKept_setResult s _).trans (controlKept_setFlag _ _)
  | rrd | mask | shr | shl | brd => exact controlKept_setResult s _
  | rwr | bwr | clr => exact controlKept_setBuf s _

/-! ### The error of a command word (R169) -/

@[simp] theorem instrError_withData (nbuf : Nat) (i : Instr) (d : Word64) :
    instrError nbuf (i.withData d) = instrError nbuf i := by
  cases i <;> rfl

/-- A word that decodes, with whatever DATA, raises what its command raises. -/
theorem wordError_of_decode_ok {c : Cmd} {d : Word64} {i : Instr} (nbuf : Nat)
    (h : decode c d = .ok i) : wordError nbuf c = instrError nbuf i := by
  have hzero : decode c 0 = .ok (i.withData 0) := by rw [← decode_map_withData c d, h]; rfl
  simp only [wordError, hzero, instrError_withData]

/-- A reserved spelling, with whatever DATA, raises ERR_RSVD (R162). -/
theorem wordError_of_decode_error {c : Cmd} {d : Word64} {x : DecodeError} (nbuf : Nat)
    (h : decode c d = .error x) : wordError nbuf c = some .rsvd := by
  have hzero : decode c 0 = .error x := by rw [← decode_map_withData c d, h]; rfl
  simp only [wordError, hzero]

/-- Everything the port can answer to a command, told by its word: discarded, refused with the error
of that very word, or carried out (R169 to R171). -/
theorem State.runCommand_cases_of_word {s t : State} {c : Cmd} {d : Word64}
    (h : s.runCommand c d = .next t) :
    (s.halted = true ∧ t = s) ∨
      (∃ e, Running s ∧ wordError s.nbuf c = some e ∧ t = s.raiseError e c) ∨
      (∃ i, Running s ∧ decode c d = .ok i ∧ wordError s.nbuf c = none ∧ t = instrEffect i s) := by
  obtain hdiscard | ⟨x, hrun, hdec, rfl⟩ | ⟨i, hrun, hdec, hexec⟩ := State.runCommand_cases h
  · exact .inl hdiscard
  · exact .inr (.inl ⟨.rsvd, hrun, wordError_of_decode_error _ hdec, rfl⟩)
  · have herr := wordError_of_decode_ok s.nbuf hdec
    obtain hdiscard | ⟨e, -, he, rfl⟩ | ⟨-, hok, rfl⟩ := exec_cases hexec
    · exact .inl hdiscard
    · rw [encodeCmd_of_decode hdec]
      exact .inr (.inl ⟨e, hrun, herr.trans he, rfl⟩)
    · exact .inr (.inr ⟨i, hrun, hdec, herr.trans hok, rfl⟩)

/-! ### Invariants of a step -/

/-- A property that does not speak of the host's list, that every command at the port keeps and every
reset establishes, is kept by every step (R50, R185). -/
theorem step_keeps {P : State → Prop} {s t : State}
    (hpop : ∀ (s : State) rest, P s → P (s.setInputs rest))
    (hcommand : ∀ (s t : State) c d, P s → s.runCommand c d = .next t → P t)
    (hreset : ∀ (s : State) mode, P (s.applyReset mode)) (hs : P s) (h : step s = .next t) :
    P t := by
  obtain ⟨-, rfl⟩ | ⟨c, d, rest, -, hcmd⟩ | ⟨mode, rest, -, rfl⟩ | ⟨mode, c, d, rest, -, hres⟩ :=
    step_cases h
  · exact hs
  · exact hcommand _ _ _ _ (hpop s rest hs) hcmd
  · exact hreset _ mode
  · obtain ⟨u, -, rfl⟩ | rfl := State.resetDuring_cases hres <;> exact hreset _ mode

/-! ### STATUS stays legal (R25, R27) -/

theorem ControlKept.statusOk {s t : State} (hkept : ControlKept s t) (hs : StatusOk s) :
    StatusOk t := by
  rwa [StatusOk, hkept.halted, hkept.ecode, hkept.reserved]

/-- R170: the error action puts a code from 1 to 8 in ECODE as it sets HALT. -/
theorem statusOk_raiseError {s : State} (e : ErrCode) (c : Cmd) (hs : StatusOk s) :
    StatusOk (s.raiseError e c) := by
  obtain ⟨hreserved, -, -⟩ := hs
  obtain ⟨hpos, hmax⟩ := errNumber_bounds e
  have hne : errNumber e ≠ 0#4 := fun h => by simp [h] at hpos
  simp [StatusOk, State.halted, hreserved, hmax, hne]

theorem statusOk_runCommand {s t : State} {c : Cmd} {d : Word64} (hs : StatusOk s)
    (h : s.runCommand c d = .next t) : StatusOk t := by
  obtain ⟨-, rfl⟩ | ⟨e, -, -, rfl⟩ | ⟨i, -, -, -, rfl⟩ := State.runCommand_cases_of_word h
  · exact hs
  · exact statusOk_raiseError e c hs
  · exact (controlKept_instrEffect i s).statusOk hs

/-- Settles O49: a command keeps STATUS legal, and a reset clears it. -/
theorem stepKeepsStatusOk : Obligations.StepKeepsStatusOk := fun _ _ =>
  step_keeps (fun _ _ hs => hs) (fun _ _ _ _ => statusOk_runCommand) statusOk_applyReset

/-! ### The error record stays true (R27, R29) -/

theorem ControlKept.errorRecordOk {s t : State} (hkept : ControlKept s t) (hs : ErrorRecordOk s) :
    ErrorRecordOk t := by
  rwa [ErrorRecordOk, hkept.halted, hkept.ecode, hkept.errcmd, hkept.nbuf]

/-- R170: the error action records the word with the error that it raises. -/
theorem errorRecordOk_raiseError {s : State} {e : ErrCode} {c : Cmd}
    (herr : wordError s.nbuf c = some e) : ErrorRecordOk (s.raiseError e c) :=
  ⟨fun hrun => by simp [State.halted] at hrun,
    fun _ => ⟨e, statusEcode_withError s.status e, herr⟩⟩

theorem errorRecordOk_runCommand {s t : State} {c : Cmd} {d : Word64} (hs : ErrorRecordOk s)
    (h : s.runCommand c d = .next t) : ErrorRecordOk t := by
  obtain ⟨-, rfl⟩ | ⟨e, -, herr, rfl⟩ | ⟨i, -, -, -, rfl⟩ := State.runCommand_cases_of_word h
  · exact hs
  · exact errorRecordOk_raiseError herr
  · exact (controlKept_instrEffect i s).errorRecordOk hs

/-- Settles O50: an error is recorded with the word that raises it, and a reset clears the record. -/
theorem stepKeepsErrorRecord : Obligations.StepKeepsErrorRecord := fun _ _ =>
  step_keeps (fun _ _ hs => hs) (fun _ _ _ _ => errorRecordOk_runCommand) errorRecordOk_applyReset

/-! ### Which commands write what -/

@[simp] theorem encodeCmd_op (i : Instr) : (encodeCmd i).op = Laws.opcodeOf i := by
  cases i with
  | nop => exact Laws.Opcode.nop
  | frd => exact Laws.Opcode.frd _
  | fwr => exact Laws.Opcode.fwr _ _
  | fwrc => exact Laws.Opcode.fwrc _ _
  | fis => exact Laws.Opcode.fis _ _
  | rrd => exact Laws.Opcode.rrd _ _
  | rwr => exact Laws.Opcode.rwr _ _ _
  | mask => exact Laws.Opcode.mask _ _ _
  | shr => exact Laws.Opcode.shr _ _ _ _
  | shl => exact Laws.Opcode.shl _ _ _ _
  | shr1b => exact Laws.Opcode.shr1b _
  | shl1b => exact Laws.Opcode.shl1b _
  | brd => exact Laws.Opcode.brd _
  | bwr => exact Laws.Opcode.bwr _ _
  | clr => exact Laws.Opcode.clr
  | reservedOpF => exact Laws.Opcode.reservedOpF _

/-- R23: RESULT is written by FRD, RRD, MASK, the four shifts and BRD. -/
theorem op_of_instrEffect_result_ne {i : Instr} {s : State}
    (h : (instrEffect i s).result ≠ s.result) :
    (encodeCmd i).op ∈ [0x1, 0x5, 0x7, 0x8, 0x9, 0xA, 0xB, 0xC] := by
  rw [encodeCmd_op]
  cases i with
  | frd | rrd | mask | shr | shl | shr1b | shl1b | brd => simp [Laws.opcodeOf]
  | nop | fwr | fwrc | fis | rwr | bwr | clr | reservedOpF => exact absurd rfl h

/-- R24: FLAG is written by FIS, SHR1B and SHL1B. -/
theorem op_of_instrEffect_flag_ne {i : Instr} {s : State} (h : (instrEffect i s).flag ≠ s.flag) :
    (encodeCmd i).op ∈ [0x4, 0xA, 0xB] := by
  rw [encodeCmd_op]
  cases i with
  | fis | shr1b | shl1b => simp [Laws.opcodeOf]
  | nop | frd | fwr | fwrc | rrd | rwr | mask | shr | shl | brd | bwr | clr | reservedOpF =>
    exact absurd rfl h

/-- R28: STATUS is written by the four field commands. -/
theorem op_of_instrEffect_status_ne {i : Instr} {s : State}
    (h : (instrEffect i s).status ≠ s.status) : (encodeCmd i).op ∈ [0x1, 0x2, 0x3, 0x4] := by
  rw [encodeCmd_op]
  cases i with
  | frd | fwr | fwrc | fis => simp [Laws.opcodeOf]
  | nop | rrd | rwr | mask | shr | shl | shr1b | shl1b | brd | bwr | clr | reservedOpF =>
    exact absurd rfl h

/-- R46: BUF is written by FWR, FWRC, RWR, BWR and CLR. -/
theorem op_of_instrEffect_buf_ne {i : Instr} {s : State} (h : (instrEffect i s).buf ≠ s.buf) :
    (encodeCmd i).op ∈ [0x2, 0x3, 0x6, 0xD, 0xE] := by
  rw [encodeCmd_op]
  cases i with
  | fwr | fwrc | rwr | bwr | clr => simp [Laws.opcodeOf]
  | nop | frd | fis | rrd | mask | shr | shl | shr1b | shl1b | brd | reservedOpF =>
    exact absurd rfl h

/-- Settles O42: a discarded command changes nothing, the error action none of these registers, and a
completing command only those that its effect writes. -/
theorem commandsWriteOnlyTheirRegisters : Obligations.CommandsWriteOnlyTheirRegisters := by
  intro i s t h
  obtain ⟨-, rfl⟩ | ⟨e, -, -, rfl⟩ | ⟨-, -, rfl⟩ := exec_cases h
  · simp
  · simp
  · have hkept := controlKept_instrEffect i s
    have htriv : statusTriv (instrEffect i s).status ≠ statusTriv s.status →
        (instrEffect i s).status ≠ s.status := mt (congrArg statusTriv)
    exact ⟨op_of_instrEffect_result_ne, op_of_instrEffect_flag_ne,
      fun hne => op_of_instrEffect_status_ne (htriv hne), op_of_instrEffect_buf_ne,
      hkept.reserved, hkept.nbuf, hkept.inputs, hkept.choices⟩

/-! ### The step -/

/-- A word that decodes runs its instruction, which discards itself while halted as the port does. -/
theorem State.runCommand_eq_exec {c : Cmd} {d : Word64} {i : Instr} (s : State)
    (hdec : decode c d = .ok i) : s.runCommand c d = exec i s := by
  cases hs : s.halted with
  | false => exact State.runCommand_ok hs hdec
  | true => rw [State.runCommand_halted hs, exec_eq_command, State.command_halted hs]

/-- Settles O8: the step takes the command off the list and the port runs it. -/
theorem stepRunsDecodedCommand : Obligations.StepRunsDecodedCommand := by
  intro s c d rest i
  refine ⟨fun hinputs hdec _ => ?_, step_idle⟩
  rw [step_action hinputs]
  exact State.runCommand_eq_exec (s.setInputs rest) hdec

end Sys2Proof.Machine

/-! The memory family (20_memory.md): actions are taken in order, no command stores outside the bytes
it names, and reads of the same bytes agree. What a window reads as
(`Memory.readBytes`) depends on the bytes it covers alone. -/

namespace Sys2Proof

/-- R64, R65: a width is of 1, 2, 4 or 8 bytes. -/
theorem Width.bytes_bounds (w : Width) : 1 ≤ w.bytes ∧ w.bytes ≤ 8 := by
  cases w <;> decide

end Sys2Proof

namespace Sys2Proof.Machine

/-! ### Nothing stops BFC (log 11) -/

theorem State.command_answers (s : State) (c : Cmd) (err : Option ErrCode) (eff : State → State) :
    ∃ t, s.command c err eff = .next t := by
  cases hs : s.halted with
  | true => exact ⟨s, State.command_halted hs⟩
  | false =>
    cases err with
    | none => exact ⟨eff s, State.command_effect hs⟩
    | some e => exact ⟨s.raiseError e c, State.command_error hs⟩

theorem exec_answers (i : Instr) (s : State) : ∃ t, exec i s = .next t :=
  exec_eq_command i s ▸ s.command_answers _ _ _

theorem State.runCommand_answers (s : State) (c : Cmd) (d : Word64) :
    ∃ t, s.runCommand c d = .next t := by
  cases hdec : decode c d with
  | ok i => exact State.runCommand_eq_exec s hdec ▸ exec_answers i s
  | error e =>
    cases hs : s.halted with
    | true => exact ⟨s, State.runCommand_halted hs⟩
    | false => exact ⟨s.raiseError .rsvd c, State.runCommand_error hs hdec⟩

/-- R185: a reset during a command answers whichever outcome is chosen, since the command does. -/
theorem State.resetDuring_answers (s : State) (mode : ResetMode) (c : Cmd) (d : Word64) :
    ∃ t, s.resetDuring mode c d = .next t := by
  obtain ⟨u, hu⟩ := s.countChoice.runCommand_answers c d
  simp only [State.resetDuring, hu]
  split
  · exact ⟨u.applyReset mode, rfl⟩
  · exact ⟨s.countChoice.applyReset mode, rfl⟩

theorem step_answers (s : State) : ∃ t, step s = .next t := by
  cases hinputs : s.inputs with
  | nil => exact ⟨s, step_idle hinputs⟩
  | cons action rest =>
    rw [step_action hinputs]
    cases action with
    | command c d => exact State.runCommand_answers _ c d
    | reset mode => exact ⟨_, rfl⟩
    | resetInFlight mode c d => exact State.resetDuring_answers _ mode c d

/-! ### Only the step takes an action off the host's list (R50) -/

theorem State.runCommand_inputs {s t : State} {c : Cmd} {d : Word64}
    (h : s.runCommand c d = .next t) : t.inputs = s.inputs := by
  obtain ⟨-, rfl⟩ | ⟨e, -, -, rfl⟩ | ⟨i, -, -, -, rfl⟩ := State.runCommand_cases_of_word h
  · rfl
  · rfl
  · exact (controlKept_instrEffect i s).inputs

theorem State.resetDuring_inputs {s t : State} {mode : ResetMode} {c : Cmd} {d : Word64}
    (h : s.resetDuring mode c d = .next t) : t.inputs = s.inputs := by
  obtain ⟨u, hu, rfl⟩ | rfl := State.resetDuring_cases h
  · rw [State.applyReset_inputs, State.runCommand_inputs hu, State.countChoice_inputs]
  · rfl

theorem step_inputs {s t : State} (h : step s = .next t) : t.inputs = s.inputs.tail := by
  obtain ⟨hnil, rfl⟩ | ⟨c, d, rest, hcons, hcmd⟩ | ⟨mode, rest, hcons, rfl⟩ |
    ⟨mode, c, d, rest, hcons, hres⟩ := step_cases h
  · rw [hnil, List.tail_nil]
  · rw [hcons, State.runCommand_inputs hcmd, State.setInputs_inputs, List.tail_cons]
  · rw [hcons, State.applyReset_inputs, State.setInputs_inputs, List.tail_cons]
  · rw [hcons, State.resetDuring_inputs hres, State.setInputs_inputs, List.tail_cons]

/-- Settles O14: a step answers, and what it answers holds the list without its first action. -/
theorem actionsAreTakenInOrder : Obligations.ActionsAreTakenInOrder := by
  intro s
  obtain ⟨t, ht⟩ := step_answers s
  exact ⟨t, ht, step_inputs ht⟩

/-! ### What a store leaves alone (R46) -/

/-- A byte outside a stored sequence is as before. -/
theorem Memory.readByte_writeBytes_outside {m : Memory} {a k : Nat} {bs : List Byte}
    (hwf : Memory.wf m = true) (hout : ¬(a ≤ k ∧ k < a + bs.length)) :
    (m.writeBytes a bs).readByte k = m.readByte k := by
  rw [Memory.readByte_writeBytes m a k bs hwf, if_neg hout]

/-- The bytes of BUF that R46 lets a command store; every command not listed stores none. -/
def MayStore (nbuf : Nat) : Instr → Nat → Prop
  | .fwr f _, a => InWindow f.wbase f.w a
  | .fwrc f _, a => InWindow f.wbase f.w a
  | .rwr w wbase _, a => InWindow wbase w a
  | .bwr idx _, a => a = idx
  | .clr, a => a < nbuf
  | _, _ => False

/-- R119: a field write that passed its checks stores in its window alone. -/
theorem storeField_readByte_outside {s : State} {f : Field} {a : Nat} (data : Word64)
    (hwf : Memory.wf s.buf = true) (hok : fieldError s.nbuf f .write = none)
    (hout : ¬InWindow f.wbase f.w a) :
    (s.storeField f data).buf.readByte a = s.buf.readByte a := by
  obtain ⟨hf, -⟩ := (fieldError_eq_none_iff _ _ _).mp hok
  have hlen := fieldWrite_length (dataValue f.v data) hf
    (Memory.readBytes_length s.buf f.wbase f.w.bytes)
  exact Memory.readByte_writeBytes_outside hwf (hlen ▸ hout)

/-- The effect of a command that passed its checks stores no byte but those that R46 names. -/
theorem instrEffect_readByte_outside {i : Instr} {s : State} {a : Nat}
    (hwf : Memory.wf s.buf = true) (hok : instrError s.nbuf i = none)
    (hout : ¬MayStore s.nbuf i a) : (instrEffect i s).buf.readByte a = s.buf.readByte a := by
  cases i with
  | fwr f data => exact storeField_readByte_outside data hwf hok hout
  | fwrc f data => exact storeField_readByte_outside data hwf hok hout
  | rwr w wbase data =>
    exact Memory.readByte_writeBytes_outside hwf (by rwa [bytesOf_length])
  | bwr idx data =>
    exact (Memory.readByte_writeByte s.buf idx a _ hwf).trans (if_neg hout)
  | clr =>
    have hnbuf : ¬a < s.nbuf := hout
    exact Memory.readByte_writeBytes_outside hwf (by simpa using hnbuf)
  | nop | frd | fis | rrd | mask | shr | shl | shr1b | shl1b | brd | reservedOpF => rfl

/-- The same for every answer of a meaning: one discarded or refused by a check stores nothing. -/
theorem exec_readByte_outside {i : Instr} {s t : State} {a : Nat} (hwf : Memory.wf s.buf = true)
    (h : exec i s = .next t) (hout : ¬MayStore s.nbuf i a) :
    t.buf.readByte a = s.buf.readByte a := by
  obtain ⟨-, rfl⟩ | ⟨e, -, -, rfl⟩ | ⟨-, hok, rfl⟩ := exec_cases h
  · rfl
  · rfl
  · exact instrEffect_readByte_outside hwf hok hout

/-- Settles O43: the exceptions of the statement are the bytes that R46 lets each command store. -/
theorem bytesOutsideAreKept : Obligations.BytesOutsideAreKept := by
  intro i s t a ⟨_, _, hwf, _⟩ h hfield hwindow hindex hclr
  refine exec_readByte_outside hwf h fun hstore => ?_
  cases i with
  | fwr f d => exact hfield f d (.inl rfl) hstore
  | fwrc f d => exact hfield f d (.inr rfl) hstore
  | rwr w wbase d => exact hwindow w wbase d rfl hstore
  | bwr idx d => exact hindex idx d rfl hstore
  | clr => exact absurd hstore (Nat.not_lt.mpr (hclr rfl))
  | nop | frd | fis | rrd | mask | shr | shl | shr1b | shl1b | brd | reservedOpF => exact hstore

/-! ### What a read of a window depends on (R42, R44) -/

/-- A read depends on the bytes it covers alone. -/
theorem Memory.readBytes_congr {m m' : Memory} {a n : Nat}
    (h : ∀ k, a ≤ k ∧ k < a + n → m'.readByte k = m.readByte k) :
    m'.readBytes a n = m.readBytes a n := by
  induction n generalizing a with
  | zero => rfl
  | succ n ih =>
    rw [Memory.readBytes, Memory.readBytes, h a (by omega), ih fun k hk => h k (by omega)]

/-- A read falls into a read of its low bytes and one of the bytes above them. -/
theorem Memory.readBytes_add (m : Memory) (a j n : Nat) :
    m.readBytes a (j + n) = m.readBytes a j ++ m.readBytes (a + j) n := by
  induction j generalizing a with
  | zero => simp [Memory.readBytes]
  | succ j ih =>
    rw [Nat.add_right_comm, Memory.readBytes, Memory.readBytes, ih, List.cons_append,
      Nat.add_right_comm a 1 j, Nat.add_assoc a j 1]

/-- A window of `n` bytes has a value below `2^(8n)` (R10). -/
theorem Memory.readVal_lt (m : Memory) (a n : Nat) : m.readVal a n < 2 ^ (8 * n) := by
  simpa [Memory.readVal] using val_lt (m.readBytes a n)

theorem Memory.readVal_add (m : Memory) (a j n : Nat) :
    m.readVal a (j + n) = m.readVal a j + 2 ^ (8 * j) * m.readVal (a + j) n := by
  simp only [Memory.readVal, Memory.readBytes_add, val_append, Memory.readBytes_length]

/-- R44: a read inside a wider one gives the wider value's bytes at that place. -/
theorem Memory.readVal_slice (m : Memory) {a b n w : Nat} (hlo : a ≤ b) (hhi : b + n ≤ a + w) :
    m.readVal b n = m.readVal a w >>> (8 * (b - a)) % 2 ^ (8 * n) := by
  obtain ⟨j, rfl⟩ := Nat.exists_eq_add_of_le hlo
  obtain ⟨r, rfl⟩ := Nat.exists_eq_add_of_le (show j + n ≤ w by omega)
  rw [Nat.add_sub_cancel_left, Nat.add_assoc, Memory.readVal_add, Nat.shiftRight_eq_div_pow,
    Nat.add_mul_div_left _ _ (by positivity), Nat.div_eq_of_lt (Memory.readVal_lt m a j),
    Nat.zero_add, Memory.readVal_add, Nat.add_mul_mod_self_left,
    Nat.mod_eq_of_lt (Memory.readVal_lt m (a + j) n)]

theorem Memory.readVal_one (m : Memory) (a : Nat) : m.readVal a 1 = (m.readByte a).toNat := by
  simp [Memory.readVal, Memory.readBytes]

/-! ### What RRD, RWR and BRD answer (R140, R141, R143) -/

/-- A running command that breaks no check completes. -/
theorem exec_completes {i : Instr} {s : State} (hrun : Running s)
    (hok : instrError s.nbuf i = none) : exec i s = .next (instrEffect i s) := by
  rw [exec_eq_command, hok, State.command_effect hrun]

theorem exec_rrd {s : State} {w : Width} {a : Nat} (hrun : Running s)
    (hwin : WindowLegal s.nbuf a w) :
    exec (.rrd w a) s = .next (s.setResult (zext64 (s.buf.readVal a w.bytes))) :=
  exec_completes hrun ((windowError_eq_none_iff ..).mpr hwin)

theorem exec_rwr {s : State} {w : Width} {a : Nat} {d : Word64} (hrun : Running s)
    (hwin : WindowLegal s.nbuf a w) :
    exec (.rwr w a d) s = .next (s.setBuf (s.buf.writeVal a w.bytes (dataValue w d))) :=
  exec_completes hrun ((windowError_eq_none_iff ..).mpr hwin)

theorem exec_brd {s : State} {idx : Nat} (hrun : Running s) (hidx : idx < s.nbuf) :
    exec (.brd idx) s = .next (s.setResult (zext64 (s.buf.readByte idx).toNat)) :=
  exec_completes hrun ((indexError_eq_none_iff ..).mpr hidx)

theorem zext64_toNat {v : Nat} (h : v < 2 ^ 64) : (zext64 v).toNat = v :=
  (BitVec.toNat_ofNat v 64).trans (Nat.mod_eq_of_lt h)

/-- RESULT holds a window's value whole, a window having at most 8 bytes (R23). -/
theorem zext64_readVal_toNat (m : Memory) (a : Nat) (w : Width) :
    (zext64 (m.readVal a w.bytes)).toNat = m.readVal a w.bytes := by
  obtain ⟨-, hle⟩ := w.bytes_bounds
  exact zext64_toNat <| (m.readVal_lt a w.bytes).trans_le <|
    Nat.pow_le_pow_right Nat.two_pos (Nat.mul_le_mul_left 8 hle)

theorem zext64_byte_toNat (b : Byte) : (zext64 b.toNat).toNat = b.toNat :=
  zext64_toNat (b.isLt.trans (by decide))

/-- Settles O40: both reads are slices of the wider read, taken in a state with the same bytes. -/
theorem overlappingReadsAgree : Obligations.OverlappingReadsAgree := by
  intro s t w v a b hs ht hnbuf hwin hlo hhi hsame
  obtain ⟨hpos, -⟩ := v.bytes_bounds
  have hval : t.buf.readVal b v.bytes = s.buf.readVal b v.bytes :=
    congrArg val (Memory.readBytes_congr hsame)
  have hbyte : t.buf.readByte b = s.buf.readByte b := hsame b (by omega)
  refine ⟨_, _, _, exec_rrd hs hwin, exec_rrd ht (by omega), exec_brd ht (by omega), ?_, ?_⟩
  · simp only [State.setResult_result, zext64_readVal_toNat, hval]
    exact Memory.readVal_slice _ hlo hhi
  · simp only [State.setResult_result, zext64_readVal_toNat, zext64_byte_toNat, hbyte]
    rw [← Memory.readVal_one]
    exact Memory.readVal_slice (n := 1) _ hlo (by omega)

/-- Settles O41: RWR leaves every byte outside its window, and the reads depend on such bytes alone. -/
theorem disjointWindowsDoNotInterfere : Obligations.DisjointWindowsDoNotInterfere := by
  intro s t w v a b idx d hs ⟨_, _, hwf, _⟩ h hwin hread hdisjoint hidx hout
  have hkept : ∀ k, ¬InWindow a w k → t.buf.readByte k = s.buf.readByte k := fun _ =>
    exec_readByte_outside hwf h
  have hcontrol : ControlKept s t := by
    rw [exec_rwr hs hwin] at h
    injection h with h
    exact h ▸ controlKept_setBuf s _
  have ht : Running t := hcontrol.halted.trans hs
  have hval : t.buf.readVal b v.bytes = s.buf.readVal b v.bytes :=
    congrArg val (Memory.readBytes_congr fun k hk => hkept k (by omega))
  refine ⟨_, _, _, _, exec_rrd hs hread, exec_rrd ht (by rwa [hcontrol.nbuf]), ?_,
    exec_brd hs hidx, exec_brd ht (by rwa [hcontrol.nbuf]), ?_⟩
  · rw [State.setResult_result, State.setResult_result, hval]
  · rw [State.setResult_result, State.setResult_result, hkept idx hout]

end Sys2Proof.Machine

/-! The encoding family (30_encoding.md): decode and encode undo each other, DATA beyond the bits a
command reads has no effect, and the assembler's lines give the words of the layout. Which commands
read DATA is told by `Instr.withData`, which leaves the others unchanged. -/

namespace Sys2Proof

/-! ### The codes of the operand kinds -/

theorem Width.code_lt (w : Width) : w.code < 4 := by cases w <;> decide

theorem Access.code_lt (a : Access) : a.code < 4 := by cases a <;> decide

/-! ### The ranges of the operands (R61, R66 to R68) -/

theorem baseFits_iff {n : Nat} : baseFits n = true ↔ n < 256 := by
  rw [baseFits, decide_eq_true_iff, Nat.lt_succ_iff]

theorem offsetFits_iff {n : Nat} : offsetFits n = true ↔ n < 64 := by
  rw [offsetFits, decide_eq_true_iff, Nat.lt_succ_iff]

theorem widthFits_iff {n : Nat} : widthFits n = true ↔ n < 128 := by
  rw [widthFits, decide_eq_true_iff, Nat.lt_succ_iff]

theorem Field.wf_iff {f : Field} :
    f.wf = true ↔ f.wbase < 256 ∧ f.boff < 64 ∧ f.bwid < 128 := by
  rw [Field.wf, Bool.and_eq_true, Bool.and_eq_true, baseFits_iff, offsetFits_iff, widthFits_iff,
    and_assoc]

theorem Cmd.wbase_fits (c : Cmd) : baseFits c.wbase = true :=
  baseFits_iff.mpr (c.extractLsb' 24 8).isLt

theorem Cmd.boff_fits (c : Cmd) : offsetFits c.boff = true :=
  offsetFits_iff.mpr (c.extractLsb' 10 6).isLt

theorem Cmd.bwid_fits (c : Cmd) : widthFits c.bwid = true :=
  widthFits_iff.mpr (c.extractLsb' 16 7).isLt

/-! ### Decoding an encoded command -/

/-- The codes a packed word holds read back as the operands they stand for (R63 to R65). -/
@[simp] theorem widthOfCode_code_mod (w : Width) : widthOfCode (w.code % 4) = w := by
  rw [Nat.mod_eq_of_lt w.code_lt, widthOfCode_code]

@[simp] theorem accessOfCode_code_mod (a : Access) : accessOfCode (a.code % 4) = some a := by
  rw [Nat.mod_eq_of_lt a.code_lt, accessOfCode_code]

theorem decodeField_packField {op : Nat} {f : Field} (hf : f.wf = true) :
    decodeField (packField op f) = .ok f := by
  obtain ⟨hbase, hoff, hwid⟩ := Field.wf_iff.mp hf
  simp [decodeField, packField, Nat.mod_eq_of_lt, hbase, hoff, hwid]

/-- Every encoded word passes the must-be-zero test of its row (R69). -/
theorem encodeCmd_rowBits (i : Instr) :
    encodeCmd i &&& rowMask (Laws.opcodeOf i) = rowMatch (Laws.opcodeOf i) := by
  cases i with
  | nop => exact Laws.RowBits.nop
  | frd => exact Laws.RowBits.frd _
  | fwr => exact Laws.RowBits.fwr _ _
  | fwrc => exact Laws.RowBits.fwrc _ _
  | fis => exact Laws.RowBits.fis _ _
  | rrd => exact Laws.RowBits.rrd _ _
  | rwr => exact Laws.RowBits.rwr _ _ _
  | mask => exact Laws.RowBits.mask _ _ _
  | shr => exact Laws.RowBits.shr _ _ _ _
  | shl => exact Laws.RowBits.shl _ _ _ _
  | shr1b => exact Laws.RowBits.shr1b _
  | shl1b => exact Laws.RowBits.shl1b _
  | brd => exact Laws.RowBits.brd _
  | bwr => exact Laws.RowBits.bwr _ _
  | clr => exact Laws.RowBits.clr
  | reservedOpF => exact Laws.RowBits.reservedOpF _

/-- The row of OP reads every operand back from its place in the word (R62). -/
theorem decodeRow_encode {i : Instr} (hwf : i.wf = true) :
    decodeRow (encodeCmd i) (encodeData i) = .ok i := by
  rw [decodeRow, Machine.encodeCmd_op]
  cases i with
  | nop | clr | shr1b | shl1b => rfl
  | frd _ | fwr _ _ | fwrc _ _ | fis _ _ =>
    exact congrArg (Except.map _) (decodeField_packField hwf)
  | rrd _ _ | rwr _ _ _ | brd _ | bwr _ _ =>
    simp [encodeCmd, encodeData, Laws.opcodeOf, Nat.mod_eq_of_lt (baseFits_iff.mp hwf)]
  | mask w boff bwid =>
    obtain ⟨hoff, hwid⟩ := Bool.and_eq_true_iff.mp hwf
    simp [encodeCmd, Laws.opcodeOf, Nat.mod_eq_of_lt (offsetFits_iff.mp hoff),
      Nat.mod_eq_of_lt (widthFits_iff.mp hwid)]
  | shr _ _ _ _ | shl _ _ _ _ =>
    simp [encodeCmd, encodeData, Laws.opcodeOf, Nat.mod_eq_of_lt (offsetFits_iff.mp hwf)]
  | reservedOpF rest =>
    exact congrArg (fun r => Except.ok (Instr.reservedOpF r)) BitVec.extractLsb'_append_eq_left

/-- Settles O2: an encoded word passes its row's test, and the row reads every operand back. -/
theorem decodeAfterEncode : Obligations.DecodeAfterEncode := by
  intro i hwf
  rw [decode, Machine.encodeCmd_op, if_pos (encodeCmd_rowBits i)]
  exact decodeRow_encode hwf

/-! ### Encoding a decoded command -/

theorem wf_of_decodeField {c : Cmd} {f : Field} (h : decodeField c = .ok f) : f.wf = true := by
  simp only [decodeField] at h
  split at h
  next =>
    injection h with h
    rw [← h, Field.wf, c.wbase_fits, c.boff_fits, c.bwid_fits]
    rfl
  next => cases h

/-- What a row reads fits the bits it was read from. -/
theorem wf_of_decodeRow {c : Cmd} {d : Word64} {i : Instr} (h : decodeRow c d = .ok i) :
    i.wf = true := by
  simp only [decodeRow] at h
  split at h
  -- FRD, FWR, FWRC, FIS
  case h_2 | h_3 | h_4 | h_5 =>
    obtain ⟨f, hf, rfl⟩ := decodeField_map_eq_ok h
    exact wf_of_decodeField hf
  all_goals
    injection h with h
    subst h
  -- NOP, SHR1B, SHL1B, CLR, OP = 0xF
  case h_1 | h_11 | h_12 | h_15 | h_16 => rfl
  -- RRD, RWR, BRD, BWR
  case h_6 | h_7 | h_13 | h_14 => exact c.wbase_fits
  -- MASK
  case h_8 => exact Bool.and_eq_true_iff.mpr ⟨c.boff_fits, c.bwid_fits⟩
  -- SHR, SHL
  case h_9 | h_10 => exact c.boff_fits

theorem wf_of_decode {c : Cmd} {d : Word64} {i : Instr} (h : decode c d = .ok i) :
    i.wf = true := by
  simp only [decode] at h
  split at h
  next => exact wf_of_decodeRow h
  next => cases h

/-- The OP of a decoded command is that of its word (R62). -/
theorem opcodeOf_of_decode {c : Cmd} {d : Word64} {i : Instr} (h : decode c d = .ok i) :
    Laws.opcodeOf i = c.op := by
  rw [← Machine.encodeCmd_op, encodeCmd_of_decode h]

/-- A decoded command carries the DATA it came with, if it reads any (R72). -/
theorem withData_of_decode {c : Cmd} {d : Word64} {i : Instr} (h : decode c d = .ok i) :
    i.withData d = i := by
  have hmap := decode_map_withData c d d
  rw [h] at hmap
  injection hmap

/-- R72: NOP, FRD, RRD, MASK, BRD and CLR read no DATA and send 0, as OP = 0xF does. -/
theorem encodeData_withData (i : Instr) (d : Word64) :
    encodeData (i.withData d) =
      if Laws.opcodeOf i ∈ [0x0, 0x1, 0x5, 0x7, 0xC, 0xE, 0xF] then 0 else d := by
  cases i <;> rfl

/-- Settles O3: the word comes back whole, and so does DATA where the command holds it. -/
theorem encodeAfterDecode : Obligations.EncodeAfterDecode := by
  intro c d i h
  refine ⟨wf_of_decode h, encodeCmd_of_decode h, ?_⟩
  rw [← opcodeOf_of_decode h, ← encodeData_withData, withData_of_decode h]

/-! ### Words of the layout -/

/-- Settles O1: each word is decoded as it stands. -/
theorem specWordsDecode : Obligations.SpecWordsDecode :=
  ⟨rfl, rfl, rfl, rfl, rfl, rfl, rfl, rfl, rfl⟩

end Sys2Proof

namespace Sys2Proof.Machine

/-! ### DATA that a command does not read (R72) -/

/-- The L bytes of a number are those of its low 8L bits (R10). -/
theorem bytesOf_mod (len v : Nat) : bytesOf len (v % 2 ^ (8 * len)) = bytesOf len v := by
  rw [← val_bytesOf len v]
  simpa using bytesOf_val (bytesOf len v)

theorem dataValue_congr {len : Width} {d e : Word64}
    (h : d.toNat % 2 ^ (8 * len.bytes) = e.toNat % 2 ^ (8 * len.bytes)) :
    dataValue len d = dataValue len e := h

theorem dataBytes_congr {len : Width} {d e : Word64}
    (h : d.toNat % 2 ^ (8 * len.bytes) = e.toNat % 2 ^ (8 * len.bytes)) :
    dataBytes len d = dataBytes len e := by
  rw [dataBytes, ← bytesOf_mod, h, bytesOf_mod, dataBytes]

theorem dataByte_congr {d e : Word64} (h : d.toNat % 256 = e.toNat % 256) :
    dataByte d = dataByte e := by
  apply BitVec.eq_of_toNat_eq
  simpa [dataByte, BitVec.extractLsb'_toNat] using h

/-- Neither the word of a command nor its checks depend on DATA, so its answer does only where its
effect does (R72). -/
theorem exec_eq_withData {i : Instr} {e : Word64} {s : State}
    (heffect : instrEffect i s = instrEffect (i.withData e) s) :
    exec i s = exec (i.withData e) s := by
  have hword : encodeCmd (i.withData e) = encodeCmd i := by cases i <;> rfl
  simp only [exec_eq_command, hword, instrError_withData, State.command, heffect]

/-- R72: a command whose OP reads no DATA is the same command with any. -/
theorem withData_eq_self {i : Instr} (e : Word64)
    (hop : Laws.opcodeOf i ∈ [0x0, 0x1, 0x5, 0x7, 0xC, 0xE]) : i.withData e = i := by
  cases i with
  | nop | frd | rrd | mask | brd | clr | reservedOpF => rfl
  | fwr | fwrc | fis | rwr | shr | shl | shr1b | shl1b | bwr => simp [Laws.opcodeOf] at hop

theorem decode_eq_of_op {c : Cmd} (d e : Word64) (hop : c.op ∈ [0x0, 0x1, 0x5, 0x7, 0xC, 0xE]) :
    decode c d = decode c e := by
  rw [← decode_map_withData c d e]
  cases hdec : decode c d with
  | error x => rfl
  | ok i =>
    rw [← opcodeOf_of_decode hdec] at hop
    exact congrArg Except.ok (withData_eq_self e hop).symm

/-- Settles O7: where the bits read agree, so do the effects; the other commands hold no DATA. -/
theorem unreadDataIsIgnored : Obligations.UnreadDataIsIgnored := by
  intro s d e f w v n
  refine ⟨fun h => ?_, fun h => ?_, fun h => ?_, fun h => ?_, fun c hop => ?_⟩
  · have hval := dataValue_congr h
    have hstore : s.storeField f d = s.storeField f e := by
      rw [State.storeField, hval, State.storeField]
    exact ⟨exec_eq_withData (i := .fwr f d) hstore, exec_eq_withData (i := .fwrc f d) hstore,
      exec_eq_withData (i := .fis f d) (by simp only [Instr.withData, instrEffect, hval])⟩
  · exact ⟨exec_eq_withData (i := .rwr w n d)
        (by simp only [Instr.withData, instrEffect, dataValue_congr h]),
      exec_eq_withData (i := .shr w v n d)
        (by simp only [Instr.withData, instrEffect, dataBytes_congr h])⟩
  · exact exec_eq_withData (i := .shl w v n d)
      (by simp only [Instr.withData, instrEffect, dataBytes_congr h])
  · have hbyte := dataByte_congr h
    exact ⟨exec_eq_withData (i := .bwr n d) (by simp only [Instr.withData, instrEffect, hbyte]),
      exec_eq_withData (i := .shr1b d) (by simp only [Instr.withData, instrEffect, hbyte]),
      exec_eq_withData (i := .shl1b d) (by simp only [Instr.withData, instrEffect, hbyte])⟩
  · rw [State.runCommand, decode_eq_of_op d e hop, State.runCommand]

/-! ### What a line assembles to (R73, R74) -/

/-- A line whose expansion names `i`, which fits exactly where `ok` says so. -/
theorem assemble_of_command {line : AsmLine} {i : Instr} {ok : Bool}
    (hcmd : asmCommand (expandPseudo line) = some i) (hwf : i.wf = ok) :
    assemble line = if ok then some i else none := by
  simp only [assemble, hcmd, hwf]

/-- A line that names a command with the DATA of the line: DATA must fit too. -/
theorem assemble_of_data {line : AsmLine} {data : Option Nat} {g : Word64 → Instr} {ok : Bool}
    (hcmd : asmCommand (expandPseudo line) = (asmData data).map g) (hwf : ∀ d, (g d).wf = ok) :
    assemble line =
      if ok && decide (data.getD 0 < 2 ^ 64) then some (g (BitVec.ofNat 64 (data.getD 0)))
      else none := by
  rw [asmData_eq] at hcmd
  by_cases hfits : data.getD 0 < 2 ^ 64
  · rw [if_pos hfits, Option.map_some] at hcmd
    rw [assemble_of_command hcmd (hwf _), decide_eq_true hfits, Bool.and_true]
  · rw [if_neg hfits, Option.map_none] at hcmd
    simp only [assemble, hcmd, decide_eq_false hfits, Bool.and_false, Bool.false_eq_true, if_false]

/-- Settles O53: an accepted line is well formed, so `decodeAfterEncode` gives it back; the clauses are
the rows of the assembler, a pseudo-instruction's width of 1 always fitting. -/
theorem assembledLinesDecodeBack : Obligations.AssembledLinesDecodeBack := by
  refine ⟨fun line i h => ?_, fun acc w v base off wid data => ?_⟩
  · obtain ⟨-, hwf⟩ := (assemble_eq_some_iff line i).mp h
    exact ⟨hwf, decodeAfterEncode i hwf⟩
  · have hbit (a : Access) : Field.wf ⟨a, w, v, base, off, 1⟩ = (baseFits base && offsetFits off) :=
      Bool.and_true _
    exact ⟨assemble_of_command rfl rfl, assemble_of_data rfl fun _ => rfl,
      assemble_of_data rfl fun _ => rfl, assemble_of_data rfl fun _ => rfl,
      assemble_of_command rfl rfl, assemble_of_data rfl fun _ => rfl,
      assemble_of_command rfl rfl, assemble_of_data rfl fun _ => rfl,
      assemble_of_data rfl fun _ => rfl,
      assemble_of_data (g := .shr1b) (ok := true) rfl fun _ => rfl,
      assemble_of_data (g := .shl1b) (ok := true) rfl fun _ => rfl, assemble_of_command rfl rfl,
      assemble_of_data rfl fun _ => rfl, rfl, rfl,
      assemble_of_command rfl (hbit _), assemble_of_command rfl (hbit _),
      assemble_of_command rfl (hbit _), assemble_of_command rfl rfl⟩

/-! ### The words of a line (R61) -/

/-- The words of an accepted line are those of the command it names. -/
theorem map_encode_assemble {line : AsmLine} {i : Instr} {bits data : Nat}
    (hcmd : asmCommand (expandPseudo line) = some i) (hwf : i.wf = true)
    (hword : encodeCmd i = BitVec.ofNat 32 bits) (hdata : encodeData i = BitVec.ofNat 64 data) :
    (assemble line).map encode = some (BitVec.ofNat 32 bits, BitVec.ofNat 64 data) := by
  rw [(assemble_eq_some_iff line i).mpr ⟨hcmd, hwf⟩, Option.map_some, encode, hword, hdata]

/-- A packed word is the sum of its fields at their places, where each of them fits (R61). -/
theorem packCmd_eq_ofNat {op acc wsz vsz boff bwid : Nat} (wbase : Nat) (hop : op < 16)
    (hacc : acc < 4) (hwsz : wsz < 4) (hvsz : vsz < 4) (hboff : boff < 64) (hbwid : bwid < 128) :
    packCmd op acc wsz vsz boff bwid wbase =
      BitVec.ofNat 32 (op + (acc * 2 ^ 4 + wsz * 2 ^ 6 + vsz * 2 ^ 8 + boff * 2 ^ 10 +
        bwid * 2 ^ 16 + wbase * 2 ^ 24)) := by
  apply BitVec.eq_of_toNat_eq
  rw [packCmd_toNat, BitVec.toNat_ofNat]
  omega

theorem packCmd_window_eq_ofNat {op : Nat} (w : Width) (base : Nat) (hop : op < 16) :
    packCmd op 0 w.code 0 0 0 base = BitVec.ofNat 32 (op + (w.code * 2 ^ 6 + base * 2 ^ 24)) := by
  simpa using packCmd_eq_ofNat (acc := 0) (vsz := 0) (boff := 0) (bwid := 0) base hop (by decide)
    w.code_lt (by decide) (by decide) (by decide)

theorem packCmd_mask_eq_ofNat (w : Width) {off wid : Nat} (hoff : off < 64) (hwid : wid < 128) :
    packCmd 0x7 0 w.code 0 off wid 0 =
      BitVec.ofNat 32 (0x7 + w.code * 2 ^ 6 + off * 2 ^ 10 + wid * 2 ^ 16) := by
  simpa [Nat.add_assoc] using packCmd_eq_ofNat (op := 0x7) (acc := 0) (vsz := 0) 0 (by decide)
    (by decide) w.code_lt (by decide) hoff hwid

theorem packCmd_shift_eq_ofNat {op off : Nat} (w v : Width) (hop : op < 16) (hoff : off < 64) :
    packCmd op 0 w.code v.code off 0 0 =
      BitVec.ofNat 32 (op + (w.code * 2 ^ 6 + v.code * 2 ^ 8 + off * 2 ^ 10)) := by
  simpa using packCmd_eq_ofNat (acc := 0) (bwid := 0) 0 hop (by decide) w.code_lt v.code_lt hoff
    (by decide)

theorem packCmd_index_eq_ofNat {op : Nat} (idx : Nat) (hop : op < 16) :
    packCmd op 0 0 0 0 0 idx = BitVec.ofNat 32 (op + idx * 2 ^ 24) := by
  simpa using packCmd_eq_ofNat (acc := 0) (wsz := 0) (vsz := 0) (boff := 0) (bwid := 0) idx hop
    (by decide) (by decide) (by decide) (by decide) (by decide)

/-- Settles O54: the packed word of each row is a sum, in which a field the line does not name is 0. -/
theorem assembledWordsFollowTheLayout : Obligations.AssembledWordsFollowTheLayout := by
  intro acc w v base off wid n hbase hoff hwid hn sent word field oneBit window shift
  have hb : baseFits base = true := decide_eq_true hbase
  have ho : offsetFits off = true := decide_eq_true hoff
  have hw : widthFits wid = true := decide_eq_true hwid
  have hfield : (asmField acc w v base off wid).wf = true := by
    simp [asmField, Field.wf, hb, ho, hw]
  have hbit : (asmField acc w v base off 1).wf = true := by
    simp [asmField, Field.wf, hb, ho, widthFits]
  have hmask : (Instr.mask w off wid).wf = true := by simp [Instr.wf, ho, hw]
  have hfieldWord (op : Nat) (hop : op < 16) :
      packField op (asmField acc w v base off wid) = BitVec.ofNat 32 (op + field) :=
    packCmd_eq_ofNat base hop (Access.code_lt _) w.code_lt v.code_lt (Nat.lt_succ_of_le hoff)
      (Nat.lt_succ_of_le hwid)
  have hbitWord (op : Nat) (hop : op < 16) :
      packField op (asmField acc w v base off 1) = BitVec.ofNat 32 (op + oneBit) :=
    packCmd_eq_ofNat base hop (Access.code_lt _) w.code_lt v.code_lt (Nat.lt_succ_of_le hoff)
      (show 1 < 128 by decide)
  have hwindowWord (op : Nat) (hop : op < 16) := packCmd_window_eq_ofNat w base hop
  have hshiftWord (op : Nat) (hop : op < 16) :=
    packCmd_shift_eq_ofNat w v hop (Nat.lt_succ_of_le hoff)
  have hdata (g : Word64 → Instr) : (asmData (some n)).map g = some (g (BitVec.ofNat 64 n)) := by
    rw [asmData_some, if_pos hn, Option.map_some]
  exact ⟨map_encode_assemble rfl hfield (hfieldWord 0x1 (by decide)) rfl,
    map_encode_assemble (hdata _) hfield (hfieldWord 0x2 (by decide)) rfl,
    map_encode_assemble (hdata _) hfield (hfieldWord 0x3 (by decide)) rfl,
    map_encode_assemble (hdata _) hfield (hfieldWord 0x4 (by decide)) rfl,
    map_encode_assemble rfl hfield (hfieldWord 0x2 (by decide)) rfl,
    map_encode_assemble rfl hbit (hbitWord 0x2 (by decide)) rfl,
    map_encode_assemble rfl hbit (hbitWord 0x2 (by decide)) rfl,
    map_encode_assemble rfl hbit (hbitWord 0x4 (by decide)) rfl,
    map_encode_assemble rfl hb (hwindowWord 0x5 (by decide)) rfl,
    map_encode_assemble (hdata _) hb (hwindowWord 0x6 (by decide)) rfl,
    map_encode_assemble rfl hb (hwindowWord 0x6 (by decide)) rfl,
    map_encode_assemble rfl hmask
      (packCmd_mask_eq_ofNat w (Nat.lt_succ_of_le hoff) (Nat.lt_succ_of_le hwid)) rfl,
    map_encode_assemble (hdata _) ho (hshiftWord 0x8 (by decide)) rfl,
    map_encode_assemble (hdata _) ho (hshiftWord 0x9 (by decide)) rfl,
    map_encode_assemble (hdata _) rfl rfl rfl,
    map_encode_assemble (hdata _) rfl rfl rfl,
    map_encode_assemble rfl hb (packCmd_index_eq_ofNat base (by decide)) rfl,
    map_encode_assemble (hdata _) hb (packCmd_index_eq_ofNat base (by decide)) rfl,
    map_encode_assemble rfl rfl rfl rfl,
    map_encode_assemble rfl rfl rfl rfl⟩

end Sys2Proof.Machine

namespace Sys2Proof.Machine

/-! ### The bits of a byte sequence's value (R9, R10)

The field paths are written byte by byte; their values are told bit by bit. -/

theorem testBit_val_cons (b : Byte) (bs : List Byte) (k : Nat) :
    (val (b :: bs)).testBit k = if k < 8 then b.getLsbD k else (val bs).testBit (k - 8) := by
  rw [val_cons, Nat.add_comm]
  exact Nat.testBit_two_pow_mul_add (i := 8) (val bs) b.isLt k

/-- R86: a sequence resized keeps its value's low bits. -/
theorem val_resize (m : Nat) (bs : List Byte) : val (resize m bs) = val bs % 2 ^ (8 * m) := by
  induction m generalizing bs with
  | zero => simp [resize, Nat.mod_one]
  | succ m ih =>
    have hp : 2 ^ (8 * (m + 1)) = 256 * 2 ^ (8 * m) := by
      rw [Nat.mul_add, Nat.pow_add, Nat.mul_comm]
    cases bs with
    | nil => simp [resize, ih]
    | cons b bs =>
      have hb := b.isLt
      rw [resize, val_cons, ih, val_cons, hp, Nat.mod_mul, Nat.add_mul_mod_self_left,
        Nat.mod_eq_of_lt hb, Nat.add_mul_div_left _ _ (by decide), Nat.div_eq_of_lt hb,
        Nat.zero_add]

/-- R113: byte by byte AND is AND of the values. -/
theorem val_andBytes {as bs : List Byte} (hlen : as.length = bs.length) :
    val (andBytes as bs) = val as &&& val bs := by
  induction as generalizing bs with
  | nil => simp [andBytes]
  | cons a as ih =>
    obtain ⟨b, bs, rfl⟩ := List.exists_cons_of_length_eq_add_one hlen.symm
    simp only [List.length_cons, Nat.add_right_cancel_iff] at hlen
    apply Nat.eq_of_testBit_eq
    intro k
    simp only [andBytes, Nat.testBit_and, testBit_val_cons, ih hlen, BitVec.getLsbD_and]
    split <;> rfl

/-- R115: a merge takes each bit from the new value where the mask has it set, else from the old. -/
theorem testBit_val_mergeBytes {old new mask : List Byte} (hnew : new.length = old.length)
    (hmask : mask.length = old.length) (k : Nat) :
    (val (mergeBytes old new mask)).testBit k =
      if (val mask).testBit k then (val new).testBit k else (val old).testBit k := by
  induction old generalizing new mask k with
  | nil =>
    rw [List.length_eq_zero_iff.mp hmask]
    simp [mergeBytes]
  | cons o os ih =>
    obtain ⟨n, ns, rfl⟩ := List.exists_cons_of_length_eq_add_one hnew
    obtain ⟨m, ms, rfl⟩ := List.exists_cons_of_length_eq_add_one hmask
    simp only [List.length_cons, Nat.add_right_cancel_iff] at hnew hmask
    simp only [mergeBytes, testBit_val_cons, ih hnew hmask]
    split
    next hk =>
      rw [BitVec.getLsbD_or, BitVec.getLsbD_and, BitVec.getLsbD_and, BitVec.getLsbD_not]
      cases m.getLsbD k <;> simp [hk]
    next => rfl

/-! ### The shift engine's rounds as arithmetic (R82, R83) -/

theorem shr1_or_carryHigh_toNat (b : Byte) (c : Bool) :
    ((shr1 b).1 ||| carryHigh c).toNat = b.toNat / 2 + 128 * c.toNat := by
  revert b c
  decide

theorem shl1_or_carryLow_toNat (b : Byte) (c : Bool) :
    ((shl1 b).1 ||| carryLow c).toNat = 2 * b.toNat % 256 + c.toNat := by
  revert b c
  decide

theorem shr1_carry_toNat (b : Byte) : (shr1 b).2.toNat = b.toNat % 2 := by
  revert b
  decide

theorem shl1_carry_toNat (b : Byte) : (shl1 b).2.toNat = b.toNat / 128 := by
  revert b
  decide

/-- A round of R82 halves the value; what is lost is the carry out of byte 0. -/
theorem val_shiftRightRound (bs : List Byte) :
    2 * val (shiftRightRound bs).1 + (shiftRightRound bs).2.toNat = val bs := by
  induction bs with
  | nil => rfl
  | cons b bs ih =>
    simp only [shiftRightRound, val_cons, shr1_or_carryHigh_toNat, shr1_carry_toNat]
    omega

/-- A round of R83 doubles the value and adds the carry in, modulo the sequence's length. -/
theorem val_shiftLeftRound (cin : Bool) (bs : List Byte) :
    val (shiftLeftRound cin bs) = (2 * val bs + cin.toNat) % 2 ^ (8 * bs.length) := by
  induction bs generalizing cin with
  | nil => simp [shiftLeftRound, Nat.mod_one]
  | cons b bs ih =>
    have hc := cin.toNat_lt
    have hp : 2 ^ (8 * (bs.length + 1)) = 256 * 2 ^ (8 * bs.length) := by
      rw [Nat.mul_add, Nat.pow_add, Nat.mul_comm]
    have hlow : (2 * (b.toNat + 256 * val bs) + cin.toNat) % 256 =
        2 * b.toNat % 256 + cin.toNat := by
      omega
    have hhigh : (2 * (b.toNat + 256 * val bs) + cin.toNat) / 256 =
        2 * val bs + b.toNat / 128 := by
      omega
    rw [shiftLeftRound, val_cons, shl1_or_carryLow_toNat, ih, shl1_carry_toNat, val_cons,
      List.length_cons, hp, Nat.mod_mul, hlow, hhigh]

/-- R84: `n` rounds to the right divide by `2^n`. -/
theorem val_shiftRight (bs : List Byte) (n : Nat) : val (shiftRight bs n) = val bs >>> n := by
  induction n generalizing bs with
  | zero => rfl
  | succ n ih =>
    have hround := val_shiftRightRound bs
    have hc := (shiftRightRound bs).2.toNat_lt
    have hhalf : val (shiftRightRound bs).1 = val bs >>> 1 := by
      rw [Nat.shiftRight_eq_div_pow]
      omega
    rw [shiftRight, ih, hhalf, ← Nat.shiftRight_add, Nat.add_comm]

/-- R85: `n` rounds to the left multiply by `2^n`, modulo the sequence's length. -/
theorem val_shiftLeft (bs : List Byte) (n : Nat) :
    val (shiftLeft bs n) = (val bs <<< n) % 2 ^ (8 * bs.length) := by
  induction n generalizing bs with
  | zero => exact (Nat.mod_eq_of_lt (val_lt bs)).symm
  | succ n ih =>
    rw [shiftLeft, ih, shiftLeftRound_length, val_shiftLeftRound, Bool.toNat_false, Nat.add_zero,
      Nat.shiftLeft_eq, Nat.mod_mul_mod, Nat.shiftLeft_eq, Nat.pow_succ, Nat.mul_comm 2,
      Nat.mul_assoc, Nat.mul_comm 2]

/-! ### The mask (R103, R104) -/

theorem getLsbD_maskByte {n start j : Nat} (hj : j < 8) :
    (maskByte n start).getLsbD j = decide (start ≤ j ∧ j < start + n) := by
  rw [maskByte, BitVec.getLsbD_ofNat, decide_eq_true hj, Bool.true_and, Nat.testBit_shiftLeft,
    Nat.one_shiftLeft, Nat.testBit_two_pow_sub_one, ← Bool.decide_and, decide_eq_decide]
  omega

theorem testBit_val_maskFrom {len skip start rem : Nat} (hstart : start < 8) (k : Nat) :
    (val (maskFrom len skip start rem)).testBit k =
      decide (8 * skip + start ≤ k ∧ k < 8 * skip + start + rem ∧ k < 8 * len) := by
  induction len generalizing skip start rem k with
  | zero => simp [maskFrom]
  | succ len ih =>
    cases skip with
    | succ skip =>
      rw [maskFrom, testBit_val_cons, ih hstart]
      split
      next hk =>
        rw [BitVec.ofNat_eq_ofNat, BitVec.getLsbD_zero, eq_comm, decide_eq_false_iff_not]
        omega
      next hk =>
        rw [decide_eq_decide]
        omega
    | zero =>
      rw [maskFrom, testBit_val_cons, ih (by decide)]
      split
      next hk =>
        rw [getLsbD_maskByte hk, decide_eq_decide]
        omega
      next hk =>
        rw [decide_eq_decide]
        omega

/-- R104: the mask's bits are those of the field, cut at the window's end. -/
theorem testBit_val_mask (w boff bwid k : Nat) :
    (val (mask w boff bwid)).testBit k = decide (boff ≤ k ∧ k < boff + bwid ∧ k < 8 * w) := by
  have hstart : bitOffsetInByte boff < 8 := Nat.mod_lt boff (by decide)
  rw [mask, testBit_val_maskFrom hstart, byteOffset, bitOffsetInByte, Nat.div_add_mod]

/-! ### The masked path (R113, R115, R117) -/

/-- R113, R117: the masked read is the field's bits of the window's value. -/
theorem maskedRead_eq {win : List Byte} {w boff bwid v : Nat} (hwin : win.length = w)
    (hrange : boff + bwid ≤ 8 * w) (hv : bwid ≤ 8 * v) :
    maskedRead win w boff bwid v = (val win >>> boff) % 2 ^ bwid := by
  apply Nat.eq_of_testBit_eq
  intro k
  rw [maskedRead, val_resize, val_shiftRight, val_andBytes (by rw [hwin, mask_length])]
  simp only [Nat.testBit_mod_two_pow, Nat.testBit_shiftRight, Nat.testBit_and, testBit_val_mask]
  by_cases hk : k < bwid
  · have hin : boff ≤ boff + k ∧ boff + k < boff + bwid ∧ boff + k < 8 * w := by omega
    simp [hk, hin, show k < 8 * v by omega]
  · simp [hk]

/-- R115, R117: the masked write puts the value's low bits in the field and keeps all others. -/
theorem testBit_val_maskedWrite {win : List Byte} {w boff bwid v : Nat} (value : Nat)
    (hwin : win.length = w) (hrange : boff + bwid ≤ 8 * w) (hv : bwid ≤ 8 * v) (k : Nat) :
    (val (maskedWrite win w boff bwid v value)).testBit k =
      if boff ≤ k ∧ k < boff + bwid then value.testBit (k - boff) else (val win).testBit k := by
  rw [maskedWrite, testBit_val_mergeBytes (by simp [hwin]) (by simp [hwin]), testBit_val_mask]
  by_cases hk : boff ≤ k ∧ k < boff + bwid
  · have hin : boff ≤ k ∧ k < boff + bwid ∧ k < 8 * w := by omega
    have hvalue : k - boff < 8 * v ∧ k - boff < 8 * w := by omega
    rw [if_pos hk, if_pos (decide_eq_true hin), val_shiftLeft, val_resize, val_bytesOf,
      resize_length]
    simp [hin, hvalue]
  · rw [if_neg hk, if_neg (by simp only [decide_eq_true_eq]; omega)]

/-! ### The bits of BUF (R9, R42) -/

theorem testBit_readVal {m : Memory} {a n k : Nat} (hk : k < 8 * n) :
    (m.readVal a n).testBit k = (m.readByte (a + k / 8)).getLsbD (k % 8) := by
  induction n generalizing a k with
  | zero => omega
  | succ n ih =>
    rw [Memory.readVal, Memory.readBytes, testBit_val_cons]
    split
    next hlow => rw [Nat.div_eq_of_lt hlow, Nat.mod_eq_of_lt hlow, Nat.add_zero]
    next hhigh =>
      have hnext := ih (a := a + 1) (k := k - 8) (by omega)
      rw [Memory.readVal] at hnext
      rw [hnext, show a + 1 + (k - 8) / 8 = a + k / 8 by omega, show (k - 8) % 8 = k % 8 by omega]

/-- The bits of BUF in a window are those of the window's value (R42). -/
theorem bufBit_of_window {s : State} {a n k : Nat} (hk : k < 8 * n) :
    bufBit s (8 * a + k) = (s.buf.readVal a n).testBit k := by
  rw [testBit_readVal hk, bufBit, Nat.mul_add_div (by decide), Nat.mul_add_mod]

/-- A read of the bytes just stored gives them back (R11). -/
theorem Memory.readBytes_writeBytes {m : Memory} {a : Nat} {bs : List Byte}
    (hwf : Memory.wf m = true) : (m.writeBytes a bs).readBytes a bs.length = bs := by
  apply List.ext_getElem?
  intro j
  by_cases hj : j < bs.length
  · rw [Memory.readBytes_getElem _ _ _ _ hj, Memory.readByte_writeBytes m a _ bs hwf,
      if_pos (by omega), Nat.add_sub_cancel_left]
    simp [hj]
  · rw [List.getElem?_eq_none (by simpa using hj), List.getElem?_eq_none (by simpa using hj)]

/-- BUF after a store: the sequence's bits where it lies, the old bits elsewhere. -/
theorem bufBit_of_buf_eq_writeBytes {s t : State} {a : Nat} {bs : List Byte}
    (hwf : Memory.wf s.buf = true) (hbuf : t.buf = s.buf.writeBytes a bs) (k : Nat) :
    bufBit t k =
      if 8 * a ≤ k ∧ k < 8 * a + 8 * bs.length then (val bs).testBit (k - 8 * a)
      else bufBit s k := by
  split
  next hin =>
    obtain ⟨j, rfl⟩ := Nat.exists_eq_add_of_le hin.1
    rw [bufBit_of_window (n := bs.length) (by omega), hbuf, Memory.readVal,
      Memory.readBytes_writeBytes hwf, Nat.add_sub_cancel_left]
  next hout =>
    rw [bufBit, hbuf, Memory.readByte_writeBytes_outside hwf (by omega), bufBit]

/-! ### A field that is not trivial, in BUF (R118, R119, R122) -/

theorem fieldValue_of_masked {nbuf : Nat} {s : State} {f : Field} (hf : FieldLegal nbuf f)
    (hmasked : fieldTrivial f = false) :
    s.fieldValue f = fieldNumber f (windowNumber s f.wbase f.w) := by
  obtain ⟨⟨-, -, hrange⟩, hvalue, -⟩ := hf
  rw [State.fieldValue, fieldRead, hmasked]
  exact maskedRead_eq (Memory.readBytes_length ..) hrange hvalue

/-- R119, R122: the field's bits take those of DATA, and every other bit of BUF is kept. -/
theorem bufBit_storeField_of_masked {nbuf : Nat} {s : State} {f : Field} (data : Word64)
    (hwf : Memory.wf s.buf = true) (hf : FieldLegal nbuf f) (hmasked : fieldTrivial f = false)
    (k : Nat) :
    bufBit (s.storeField f data) k =
      if InField f k then data.getLsbD (k - fieldStart f) else bufBit s k := by
  obtain ⟨⟨-, -, hrange⟩, hvalue, -⟩ := hf
  have hlen : (s.window f.wbase f.w).length = f.w.bytes := Memory.readBytes_length ..
  have hbuf : (s.storeField f data).buf = s.buf.writeBytes f.wbase
      (maskedWrite (s.window f.wbase f.w) f.w.bytes f.boff f.bwid f.v.bytes
        (dataValue f.v data)) := by
    rw [State.storeField_buf, fieldWrite, hmasked]
    rfl
  rw [bufBit_of_buf_eq_writeBytes hwf hbuf, maskedWrite_length _ _ _ _ hlen,
    testBit_val_maskedWrite _ hlen hrange hvalue]
  by_cases hin : InField f k
  · obtain ⟨hlo, hhi⟩ := hin
    have hin : InField f k := ⟨hlo, hhi⟩
    rw [fieldStart] at hlo hhi
    rw [if_pos hin, if_pos (by omega), if_pos (by omega), dataValue, trunc,
      Nat.testBit_mod_two_pow, decide_eq_true (by omega), Bool.true_and, Nat.sub_sub]
    rfl
  · rw [if_neg hin]
    split
    next hwindow =>
      obtain ⟨j, rfl⟩ := Nat.exists_eq_add_of_le hwindow.1
      simp only [InField, fieldStart] at hin
      rw [if_neg (by omega), Nat.add_sub_cancel_left, bufBit_of_window (n := f.w.bytes) (by omega)]
      rfl
    next => rfl

/-! ### What the pseudo-instructions mean (R74) -/

section OneBit

variable {s : State} {acc : Option Access} {w v : Width} {base bit : Nat}

theorem fieldLegal_oneBit (hwin : WindowLegal s.nbuf base w) (hbit : bit < 8 * w.bytes) :
    FieldLegal s.nbuf (asmField acc w v base bit 1) := by
  obtain ⟨hpos, -⟩ := v.bytes_bounds
  exact ⟨⟨Nat.le_refl 1, show 1 ≤ 64 by decide, hbit⟩, show 1 ≤ 8 * v.bytes by omega, hwin⟩

theorem fieldTrivial_oneBit : fieldTrivial (asmField acc w v base bit 1) = false :=
  Bool.and_false _

/-- A window inside BUF has an encodable base, and a bit of it an encodable offset (R5, R61). -/
theorem oneBit_fits (hbuf : BufferOk s) (hwin : WindowLegal s.nbuf base w)
    (hbit : bit < 8 * w.bytes) : baseFits base = true ∧ offsetFits bit = true := by
  obtain ⟨-, hmax, -, -⟩ := hbuf
  obtain ⟨hpos, hle⟩ := w.bytes_bounds
  exact ⟨decide_eq_true (by omega), decide_eq_true (by omega)⟩

/-- R110: an omitted `acc` is rw, so only one given as `ro` forbids the write. -/
theorem accessAllows_write (hacc : acc ≠ some .ro) : accessAllows (acc.getD .rw) .write = true := by
  cases acc with
  | none => rfl
  | some a =>
    cases a with
    | rw | wo => rfl
    | ro => exact absurd rfl hacc

theorem accessAllows_read (hacc : acc ≠ some .wo) : accessAllows (acc.getD .rw) .read = true := by
  cases acc with
  | none => rfl
  | some a =>
    cases a with
    | rw | ro => rfl
    | wo => exact absurd rfl hacc

/-- What FSET and FCLR are short for: a write of a one-bit field changes that bit of BUF alone. -/
theorem exec_fwr_oneBit (d : Word64) (hrun : Running s) (hbuf : BufferOk s)
    (hwin : WindowLegal s.nbuf base w) (hbit : bit < 8 * w.bytes) (hacc : acc ≠ some .ro) :
    ∃ t, exec (.fwr (asmField acc w v base bit 1) d) s = .next t ∧ Running t ∧
      ∀ k, bufBit t k = if k = 8 * base + bit then d.getLsbD 0 else bufBit s k := by
  obtain ⟨-, -, hwf, -⟩ := hbuf
  have hlegal : FieldLegal s.nbuf (asmField acc w v base bit 1) := fieldLegal_oneBit hwin hbit
  have hok := (fieldError_eq_none_iff _ _ .write).mpr ⟨hlegal, accessAllows_write hacc⟩
  refine ⟨_, exec_completes hrun hok, (controlKept_instrEffect _ s).halted.trans hrun, fun k => ?_⟩
  rw [instrEffect, bufBit_storeField_of_masked d hwf hlegal fieldTrivial_oneBit]
  have hiff : InField (asmField acc w v base bit 1) k ↔ k = 8 * base + bit := by
    simp only [InField, fieldStart, asmField]
    omega
  by_cases hk : k = 8 * base + bit
  · rw [if_pos (hiff.mpr hk), if_pos hk, hk]
    exact congrArg d.getLsbD (Nat.sub_self _)
  · rw [if_neg (mt hiff.mp hk), if_neg hk]

/-- What FTST is short for: a comparison of a one-bit field with 1 answers the bit. -/
theorem exec_fis_oneBit (hrun : Running s) (hwin : WindowLegal s.nbuf base w)
    (hbit : bit < 8 * w.bytes) (hacc : acc ≠ some .wo) :
    ∃ t, exec (.fis (asmField acc w v base bit 1) 1) s = .next t ∧ Running t ∧
      t.flag = bufBit s (8 * base + bit) ∧ t.buf = s.buf := by
  have hlegal : FieldLegal s.nbuf (asmField acc w v base bit 1) := fieldLegal_oneBit hwin hbit
  have hok := (fieldError_eq_none_iff _ _ .read).mpr ⟨hlegal, accessAllows_read hacc⟩
  have hone : dataValue v 1 = 1 := by cases v <;> rfl
  have hvalue : s.fieldValue (asmField acc w v base bit 1) =
      (s.buf.readVal base w.bytes >>> bit) % 2 :=
    fieldValue_of_masked hlegal fieldTrivial_oneBit
  refine ⟨_, exec_completes hrun hok, (controlKept_instrEffect _ s).halted.trans hrun, ?_, rfl⟩
  rw [bufBit_of_window hbit, instrEffect, State.setTriv_flag, State.setFlag_flag, hvalue, flagEqual,
    Nat.testBit_eq_decide_div_mod_eq, Nat.shiftRight_eq_div_pow, beq_eq_decide]
  exact congrArg (fun c => decide (_ = c)) hone

/-- The bytes of 0 are 0 (R10). -/
theorem bytesOf_zero (len : Nat) : bytesOf len 0 = List.replicate len 0 := by
  induction len with
  | zero => rfl
  | succ len ih => rw [bytesOf, Nat.zero_div, ih, List.replicate_succ]; rfl

/-- What RZERO is short for: a register write of 0 zeroes the window's bytes alone. -/
theorem exec_rwr_zero (hrun : Running s) (hbuf : BufferOk s) (hwin : WindowLegal s.nbuf base w) :
    ∃ t, exec (.rwr w base 0) s = .next t ∧ Running t ∧
      ∀ a, t.buf.readByte a = if InWindow base w a then 0 else s.buf.readByte a := by
  obtain ⟨-, -, hwf, -⟩ := hbuf
  refine ⟨_, exec_rwr hrun hwin, hrun, fun a => ?_⟩
  rw [State.setBuf_buf, Memory.writeVal, Memory.readByte_writeBytes _ _ _ _ hwf, bytesOf_length]
  have hzero : dataValue w 0 = 0 := Nat.zero_mod _
  have hbyte : (List.replicate w.bytes (0 : Byte)).getD (a - base) 0 = 0 := by
    rw [List.getD_eq_getElem?_getD, List.getElem?_replicate]
    split <;> rfl
  rw [hzero, bytesOf_zero, hbyte]

end OneBit

/-- Settles O55: each expansion is assembled, its operands fitting, and does what the name says. -/
theorem pseudoInstructionsMean : Obligations.PseudoInstructionsMean := by
  intro s acc w v base bit hrun hbuf hwin hbit
  obtain ⟨hbase, hoff⟩ := oneBit_fits hbuf hwin hbit
  have hwf : (asmField acc w v base bit 1).wf = true := by
    simp [asmField, Field.wf, hbase, hoff, widthFits]
  have hassembled {line : AsmLine} {i : Instr} (hcmd : asmCommand (expandPseudo line) = some i)
      (hfits : i.wf = true) : assemble line = some i :=
    (assemble_eq_some_iff line i).mpr ⟨hcmd, hfits⟩
  refine ⟨fun hacc => ?_, fun hacc => ?_, fun hacc => ?_, ?_⟩
  · obtain ⟨t, ht⟩ := exec_fwr_oneBit (v := v) 1 hrun hbuf hwin hbit hacc
    exact ⟨_, t, hassembled rfl hwf, ht⟩
  · obtain ⟨t, ht⟩ := exec_fwr_oneBit (v := v) 0 hrun hbuf hwin hbit hacc
    exact ⟨_, t, hassembled rfl hwf, ht⟩
  · obtain ⟨t, ht⟩ := exec_fis_oneBit (v := v) hrun hwin hbit hacc
    exact ⟨_, t, hassembled rfl hwf, ht⟩
  · obtain ⟨t, ht⟩ := exec_rwr_zero hrun hbuf hwin
    exact ⟨_, t, hassembled rfl hbase, ht⟩

end Sys2Proof.Machine

namespace Sys2Proof.Machine

/-! ### The single-byte shifts (R80, R81) -/

@[simp] theorem shr1_toNat (b : Byte) : (shr1 b).1.toNat = b.toNat / 2 := by
  rw [shr1, BitVec.toNat_ushiftRight, Nat.shiftRight_eq_div_pow, Nat.pow_one]

@[simp] theorem shl1_toNat (b : Byte) : (shl1 b).1.toNat = b.toNat * 2 % 256 := by
  rw [shl1, BitVec.toNat_shiftLeft, Nat.shiftLeft_eq, Nat.pow_one]

theorem shr1_carry_iff (b : Byte) : (shr1 b).2 = true ↔ b.toNat % 2 = 1 := by
  rw [← Bool.toNat_eq_one, shr1_carry_toNat]

theorem shl1_carry_iff (b : Byte) : (shl1 b).2 = true ↔ 128 ≤ b.toNat := by
  have hb := b.isLt
  rw [← Bool.toNat_eq_one, shl1_carry_toNat]
  omega

/-! ### The change of length (R86) -/

/-- R86 where the sequence is long enough: the low-index bytes are kept. -/
theorem resize_eq_take {m : Nat} {bs : List Byte} (h : m ≤ bs.length) :
    resize m bs = bs.take m := by
  induction m generalizing bs with
  | zero => rfl
  | succ m ih =>
    cases bs with
    | nil => exact absurd h (Nat.not_succ_le_zero m)
    | cons b bs => rw [resize, ih (Nat.le_of_succ_le_succ h), List.take_succ_cons]

theorem resize_nil (m : Nat) : resize m [] = List.replicate m 0 := by
  induction m with
  | zero => rfl
  | succ m ih => rw [resize, ih, List.replicate_succ]

/-- R86 where the sequence is short: zero bytes follow it. -/
theorem resize_eq_append {m : Nat} {bs : List Byte} (h : bs.length ≤ m) :
    resize m bs = bs ++ List.replicate (m - bs.length) 0 := by
  induction bs generalizing m with
  | nil => exact resize_nil m
  | cons b bs ih =>
    obtain ⟨k, rfl⟩ := Nat.exists_eq_add_of_le' (Nat.one_le_of_lt h)
    rw [resize, ih (Nat.le_of_succ_le_succ h), List.length_cons, Nat.add_sub_add_right,
      List.cons_append]

/-! ### The lengths and the operands of the shift commands (R82, R87 to R90) -/

@[simp] theorem shiftRightRound_length (bs : List Byte) :
    (shiftRightRound bs).1.length = bs.length := by
  induction bs with
  | nil => rfl
  | cons b bs ih => simp [shiftRightRound, ih]

@[simp] theorem shiftRight_length (bs : List Byte) (n : Nat) :
    (shiftRight bs n).length = bs.length := by
  induction n generalizing bs with
  | zero => rfl
  | succ n ih => rw [shiftRight, ih, shiftRightRound_length]

@[simp] theorem dataByte_toNat (d : Word64) : (dataByte d).toNat = d.toNat % 256 := by
  rw [dataByte, BitVec.extractLsb'_toNat, Nat.shiftRight_zero]

theorem dataByte_getLsbD {k : Nat} (d : Word64) (hk : k < 8) :
    (dataByte d).getLsbD k = d.getLsbD k := by
  simp [dataByte, hk]

@[simp] theorem val_dataBytes (len : Width) (d : Word64) :
    val (dataBytes len d) = d.toNat % 2 ^ (8 * len.bytes) := val_bytesOf ..

/-- SHR's value: the shift at the input length W, then the low V bytes (R89). -/
theorem val_shrBytes (w v : Width) (cnt : Nat) (d : Word64) :
    val (resize v.bytes (shiftRight (dataBytes w d) cnt)) =
      (d.toNat % 2 ^ (8 * w.bytes)) >>> cnt % 2 ^ (8 * v.bytes) := by
  rw [val_resize, val_shiftRight, val_dataBytes]

/-- SHL's value: the resize to W before the shift loses nothing the shift at W would keep, as a left
shift moves no bit down (R90). -/
theorem val_shlBytes (w v : Width) (cnt : Nat) (d : Word64) :
    val (shiftLeft (resize w.bytes (dataBytes v d)) cnt) =
      (d.toNat % 2 ^ (8 * v.bytes)) <<< cnt % 2 ^ (8 * w.bytes) := by
  rw [val_shiftLeft, resize_length, val_resize, val_dataBytes, Nat.shiftLeft_eq, Nat.mod_mul_mod,
    Nat.shiftLeft_eq]

/-! ### The obligations of the shift engine -/

/-- Settles O16. -/
theorem singleByteShifts : Obligations.SingleByteShifts := fun b =>
  ⟨shr1_toNat b, shr1_carry_iff b, shl1_toNat b, shl1_carry_iff b⟩

/-- Settles O17, by the rounds of R82: each halves the value. -/
theorem shiftRightIsValueShift : Obligations.ShiftRightIsValueShift := fun b n _ =>
  ⟨shiftRight_length b n, val_shiftRight b n⟩

/-- Settles O18, by the rounds of R83: each doubles the value modulo 2^(8L). -/
theorem shiftLeftIsValueShift : Obligations.ShiftLeftIsValueShift := fun b n _ =>
  ⟨shiftLeft_length b n, val_shiftLeft b n⟩

/-- Settles O19. -/
theorem resizeTruncatesOrExtends : Obligations.ResizeTruncatesOrExtends := fun b m =>
  ⟨resize_length m b, val_resize m b, resize_eq_take, resize_eq_append⟩

/-- Settles O20: SHR1B has no check to break, and its byte is DATA modulo 256. -/
theorem shr1bResult : Obligations.Shr1bResult := by
  intro s d hrun
  have hcarry : flagCarry (shr1 (dataByte d)) = d.getLsbD 0 := dataByte_getLsbD d (by decide)
  rw [exec_completes hrun rfl, instrEffect, shr1_toNat, dataByte_toNat, hcarry]
  rfl

/-- Settles O21: SHL1B has no check to break, and doubling modulo 256 reads only DATA[7:0]. -/
theorem shl1bResult : Obligations.Shl1bResult := by
  intro s d hrun
  have hcarry : flagCarry (shl1 (dataByte d)) = d.getLsbD 7 := dataByte_getLsbD d (by decide)
  rw [exec_completes hrun rfl, instrEffect, shl1_toNat, dataByte_toNat, Nat.mod_mul_mod, hcarry]
  rfl

/-- Settles O22: SHR has no check to break and writes the value of its shifted bytes to RESULT. -/
theorem shrResult : Obligations.ShrResult := by
  intro s w v cnt d hrun
  rw [exec_completes hrun rfl, instrEffect, val_shrBytes]
  rfl

/-- Settles O23: SHL has no check to break and writes the value of its shifted bytes to RESULT. -/
theorem shlResult : Obligations.ShlResult := by
  intro s w v cnt d hrun
  rw [exec_completes hrun rfl, instrEffect, val_shlBytes]
  rfl

end Sys2Proof.Machine

namespace Sys2Proof.Machine

/-! ### A command that breaks a check (R163, R164, R169) -/

/-- A running command that breaks a check does the error action with its own word. -/
theorem exec_raises {i : Instr} {s : State} {e : ErrCode} (hrun : Running s)
    (herr : instrError s.nbuf i = some e) : exec i s = .next (s.raiseError e (encodeCmd i)) := by
  rw [exec_eq_command, herr, State.command_error hrun]

theorem widthBroken_iff {bwid : Nat} : widthBroken bwid = true ↔ bwid = 0 ∨ 64 < bwid := by
  rw [widthBroken, Bool.or_eq_true, beq_iff_eq, decide_eq_true_iff]

theorem rangeBroken_iff {w : Width} {boff bwid : Nat} :
    rangeBroken w boff bwid = true ↔ 8 * w.bytes < boff + bwid :=
  decide_eq_true_iff

/-- R163: the width is checked first. -/
theorem maskError_of_widthBroken {w : Width} {boff bwid : Nat} (h : widthBroken bwid = true) :
    maskError w boff bwid = some .width := by
  rw [maskError, firstError_cons, if_pos h]

/-- R164, R169: the range is checked once the width has passed. -/
theorem maskError_of_rangeBroken {w : Width} {boff bwid : Nat} (hwidth : ¬ widthBroken bwid = true)
    (hrange : rangeBroken w boff bwid = true) : maskError w boff bwid = some .range := by
  rw [maskError, firstError_cons, if_neg hwidth, firstError_cons, if_pos hrange]

/-! ### The bits of one byte of a sequence (R9, R10) -/

theorem getLsbD_getElem {bs : List Byte} {j i : Nat} (hj : j < bs.length) (hi : i < 8) :
    bs[j].getLsbD i = (val bs).testBit (8 * j + i) := by
  induction bs generalizing j with
  | nil => exact absurd hj (Nat.not_lt_zero j)
  | cons b bs ih =>
    rw [testBit_val_cons]
    cases j with
    | zero => rw [if_pos (by omega), Nat.mul_zero, Nat.zero_add, List.getElem_cons_zero]
    | succ j =>
      rw [if_neg (by omega), List.getElem_cons_succ, ih (Nat.lt_of_succ_lt_succ hj)]
      congr 1
      omega

/-! ### A mask that ends inside its window (R104, R105) -/

section LegalMask

variable {w boff bwid : Nat}

theorem testBit_val_mask_of_fits (hrange : boff + bwid ≤ 8 * w) (k : Nat) :
    (val (mask w boff bwid)).testBit k = decide (boff ≤ k ∧ k < boff + bwid) := by
  rw [testBit_val_mask, decide_eq_decide]
  omega

/-- R104: the closed form has the same bits. -/
theorem val_mask (hrange : boff + bwid ≤ 8 * w) :
    val (mask w boff bwid) = ((1 <<< bwid) - 1) <<< boff := by
  apply Nat.eq_of_testBit_eq
  intro k
  rw [testBit_val_mask_of_fits hrange, Nat.testBit_shiftLeft, Nat.one_shiftLeft,
    Nat.testBit_two_pow_sub_one, ← Bool.decide_and, decide_eq_decide]
  omega

/-- R105: the set bits below the window's end are the interval of the field. -/
theorem countP_testBit_val_mask (hrange : boff + bwid ≤ 8 * w) :
    ((List.range (8 * w)).countP fun k => (val (mask w boff bwid)).testBit k) = bwid := by
  have hset : {k ∈ Finset.range (8 * w) | boff ≤ k ∧ k < boff + bwid} =
      Finset.Ico boff (boff + bwid) := by
    ext k
    rw [Finset.mem_filter, Finset.mem_range, Finset.mem_Ico]
    omega
  calc ((List.range (8 * w)).countP fun k => (val (mask w boff bwid)).testBit k)
    _ = Nat.count (fun k => boff ≤ k ∧ k < boff + bwid) (8 * w) := by
      simp only [testBit_val_mask_of_fits hrange, Nat.count]
    _ = (Finset.Ico boff (boff + bwid)).card := by rw [Nat.count_eq_card_filter_range, hset]
    _ = bwid := by rw [Nat.card_Ico, Nat.add_sub_cancel_left]

/-- R101, R105: no bit of the field lies in a byte outside the spanned ones. -/
theorem mask_getElem?_outside (hrange : boff + bwid ≤ 8 * w) {j : Nat} (hj : j < w)
    (hout : j < byteOffset boff ∨ byteOffset boff + byteCount boff bwid ≤ j) :
    (mask w boff bwid)[j]? = some 0 := by
  have hlen : j < (mask w boff bwid).length := by rwa [mask_length]
  rw [List.getElem?_eq_getElem hlen, Option.some_inj]
  apply BitVec.eq_of_getLsbD_eq
  intro i hi
  rw [getLsbD_getElem hlen hi, testBit_val_mask_of_fits hrange, BitVec.ofNat_eq_ofNat,
    BitVec.getLsbD_zero, decide_eq_false_iff_not]
  simp only [byteOffset, byteCount, bitOffsetInByte] at hout
  omega

end LegalMask

/-! ### The obligations of the mask -/

/-- Settles O24: the two numbers agree bit by bit. -/
theorem maskValue : Obligations.MaskValue := fun _ _ _ _ hrange => val_mask hrange

/-- Settles O25: each property is read off the bits of the mask's value. -/
theorem maskBits : Obligations.MaskBits := fun _ _ _ _ hrange =>
  ⟨mask_length .., testBit_val_mask_of_fits hrange, countP_testBit_val_mask hrange,
    fun _ hj => mask_getElem?_outside hrange hj⟩

/-- Settles O26: the three clauses are the outcomes of MASK's two checks, in their order. -/
theorem maskResult : Obligations.MaskResult := by
  intro s w boff bwid hrun
  refine ⟨fun hlegal => ?_, fun hwidth => ?_, fun hpos hmax hrange => ?_⟩
  · have hok : instrError s.nbuf (.mask w boff bwid) = none :=
      (maskError_eq_none_iff ..).mpr hlegal
    obtain ⟨-, -, hrange⟩ := hlegal
    rw [exec_completes hrun hok, instrEffect, val_mask hrange]
    rfl
  · exact exec_raises hrun (maskError_of_widthBroken (widthBroken_iff.mpr hwidth))
  · have hwidth : ¬ widthBroken bwid = true := by
      rw [widthBroken_iff]
      omega
    exact exec_raises hrun (maskError_of_rangeBroken hwidth (rangeBroken_iff.mpr hrange))

end Sys2Proof.Machine

/-! The field family (42_field_access.md): on a trivial field the two paths are one, so the field
value law holds on either; in BUF a field is its bits, which decides what FRD, FWR, FWRC and FIS
answer. -/

namespace Sys2Proof.Machine

/-! ### Parts of a byte sequence (R10) -/

/-- Sequences of one length are told apart by their values. -/
theorem eq_of_val_eq {as bs : List Byte} (hlen : as.length = bs.length) (h : val as = val bs) :
    as = bs := by
  rw [← bytesOf_val as, ← bytesOf_val bs, hlen, h]

theorem val_take {n : Nat} {bs : List Byte} (h : n ≤ bs.length) :
    val (bs.take n) = val bs % 2 ^ (8 * n) := by
  rw [← resize_eq_take h, val_resize]

theorem val_drop {n : Nat} {bs : List Byte} (h : n ≤ bs.length) :
    val (bs.drop n) = val bs >>> (8 * n) := by
  have hlen : (bs.take n).length = n := List.length_take_of_le h
  have hlow := val_lt (bs.take n)
  have hsplit := val_append (bs.take n) (bs.drop n)
  rw [hlen] at hlow hsplit
  rw [List.take_append_drop] at hsplit
  rw [Nat.shiftRight_eq_div_pow, hsplit, Nat.add_mul_div_left _ _ (Nat.two_pow_pos _),
    Nat.div_eq_of_lt hlow, Nat.zero_add]

theorem testBit_val_append (as bs : List Byte) (k : Nat) :
    (val (as ++ bs)).testBit k =
      if k < 8 * as.length then (val as).testBit k else (val bs).testBit (k - 8 * as.length) := by
  rw [val_append, Nat.add_comm]
  exact Nat.testBit_two_pow_mul_add (val bs) (val_lt as) k

theorem val_replicate_zero (n : Nat) : val (List.replicate n 0) = 0 := by
  rw [← resize_nil, val_resize, val_nil, Nat.zero_mod]

theorem testBit_val_replicate_ones (n k : Nat) :
    (val (List.replicate n 0xFF)).testBit k = decide (k < 8 * n) := by
  induction n generalizing k with
  | zero => exact Nat.zero_testBit k
  | succ n ih =>
    have hones : (0xFF : Byte) = BitVec.allOnes 8 := rfl
    rw [List.replicate_succ, testBit_val_cons, ih, hones, BitVec.getLsbD_allOnes]
    split <;> rw [decide_eq_decide] <;> omega

/-! ### The trivial path (R102, R112, R114) -/

theorem trivialField_iff {boff bwid : Nat} :
    trivialField boff bwid = true ↔ boff % 8 = 0 ∧ bwid % 8 = 0 := by
  rw [trivialField, bitOffsetInByte, Bool.and_eq_true, beq_iff_eq, beq_iff_eq]

/-- A trivial field begins and ends at a byte's edge. -/
theorem whole_bytes_of_trivial {boff bwid : Nat} (htriv : trivialField boff bwid = true) :
    8 * (boff / 8) = boff ∧ 8 * (bwid / 8) = bwid := by
  obtain ⟨hoff, hwid⟩ := trivialField_iff.mp htriv
  omega

theorem fieldTrivial_eq_decide (f : Field) :
    fieldTrivial f = decide (f.boff % 8 = 0 ∧ f.bwid % 8 = 0) :=
  Bool.eq_iff_iff.mpr (trivialField_iff.trans decide_eq_true_iff.symm)

section TrivialPath

variable {win : List Byte} {w boff bwid v : Nat}

/-- R112, R117: the field's own bytes are the field's bits of the window's value. -/
theorem trivRead_eq (htriv : trivialField boff bwid = true) (hwin : win.length = w)
    (hrange : boff + bwid ≤ 8 * w) :
    trivRead win boff bwid = (val win >>> boff) % 2 ^ bwid := by
  obtain ⟨hoff, hwid⟩ := whole_bytes_of_trivial htriv
  have hlen : bwid / 8 ≤ (win.drop (byteOffset boff)).length := by
    rw [List.length_drop, byteOffset]
    omega
  rw [trivRead, val_take hlen, byteOffset, val_drop (by omega), hoff, hwid]

/-- R114, R117: the field's bytes take the value's low bytes and all others are kept. -/
theorem testBit_val_trivWrite (value : Nat) (htriv : trivialField boff bwid = true)
    (hwin : win.length = w) (hrange : boff + bwid ≤ 8 * w) (hv : bwid ≤ 8 * v) (k : Nat) :
    (val (trivWrite win boff bwid v value)).testBit k =
      if boff ≤ k ∧ k < boff + bwid then value.testBit (k - boff) else (val win).testBit k := by
  obtain ⟨hoff, hwid⟩ := whole_bytes_of_trivial htriv
  have hlow : (win.take (boff / 8)).length = boff / 8 := List.length_take_of_le (by omega)
  have hmid : ((bytesOf v value).take (bwid / 8)).length = bwid / 8 :=
    List.length_take_of_le (by rw [bytesOf_length]; omega)
  rw [trivWrite, byteOffset, testBit_val_append, testBit_val_append, List.length_append, hlow, hmid,
    val_take (by omega), val_take (by rw [bytesOf_length]; omega), val_drop (by omega), val_bytesOf,
    Nat.mul_add, hoff, hwid, Nat.testBit_shiftRight]
  simp only [Nat.testBit_mod_two_pow]
  by_cases hbelow : k < boff
  · rw [if_pos (by omega), if_pos hbelow, if_neg (by omega), decide_eq_true hbelow, Bool.true_and]
  · by_cases hin : k < boff + bwid
    · rw [if_pos hin, if_neg hbelow, if_pos (by omega), decide_eq_true (by omega),
        decide_eq_true (by omega), Bool.true_and, Bool.true_and]
    · rw [if_neg hin, if_neg (by omega), Nat.add_sub_cancel' (by omega)]

/-- R116: what the trivial path reads, the masked path reads. -/
theorem trivRead_eq_maskedRead (htriv : trivialField boff bwid = true) (hwin : win.length = w)
    (hrange : boff + bwid ≤ 8 * w) (hv : bwid ≤ 8 * v) :
    trivRead win boff bwid = maskedRead win w boff bwid v := by
  rw [trivRead_eq htriv hwin hrange, maskedRead_eq hwin hrange hv]

/-- R116: the window that the trivial path leaves, the masked path leaves. -/
theorem trivWrite_eq_maskedWrite (value : Nat) (htriv : trivialField boff bwid = true)
    (hwin : win.length = w) (hrange : boff + bwid ≤ 8 * w) (hv : bwid ≤ 8 * v) :
    trivWrite win boff bwid v value = maskedWrite win w boff bwid v value := by
  apply eq_of_val_eq
  · rw [trivWrite_length value (hwin ▸ hrange) hv, maskedWrite_length _ _ _ _ hwin, hwin]
  · apply Nat.eq_of_testBit_eq
    intro k
    rw [testBit_val_trivWrite value htriv hwin hrange hv,
      testBit_val_maskedWrite value hwin hrange hv]

/-- R116: the mask of a trivial field takes whole bytes. -/
theorem mask_of_trivial (htriv : trivialField boff bwid = true) (hrange : boff + bwid ≤ 8 * w) :
    mask w boff bwid = List.replicate (boff / 8) 0 ++ List.replicate (bwid / 8) 0xFF ++
      List.replicate (w - boff / 8 - bwid / 8) 0 := by
  obtain ⟨hoff, hwid⟩ := whole_bytes_of_trivial htriv
  apply eq_of_val_eq
  · simp only [mask_length, List.length_append, List.length_replicate]
    omega
  · apply Nat.eq_of_testBit_eq
    intro k
    simp only [testBit_val_mask_of_fits hrange, testBit_val_append, List.length_append,
      List.length_replicate, val_replicate_zero, Nat.zero_testBit, testBit_val_replicate_ones]
    split
    · split
      · rw [decide_eq_false_iff_not]
        omega
      · rw [decide_eq_decide]
        omega
    · rw [decide_eq_false_iff_not]
      omega

end TrivialPath

/-- Settles O27: both paths are told by the field's bits, and so is the mask. -/
theorem trivialPathIsMaskedPath : Obligations.TrivialPathIsMaskedPath := by
  intro f win value ⟨_, _, hrange⟩ hv htriv hwin _
  exact ⟨trivRead_eq_maskedRead htriv hwin hrange hv,
    trivWrite_eq_maskedWrite value htriv hwin hrange hv, mask_of_trivial htriv hrange⟩

/-! ### The path a field takes (R111, R117) -/

section FieldPath

variable {f : Field} {win : List Byte}

theorem fieldRead_eq_maskedRead (hwin : win.length = f.w.bytes)
    (hrange : f.boff + f.bwid ≤ 8 * f.w.bytes) (hv : f.bwid ≤ 8 * f.v.bytes) :
    fieldRead f win = maskedRead win f.w.bytes f.boff f.bwid f.v.bytes := by
  rw [fieldRead]
  split
  next htriv => exact trivRead_eq_maskedRead htriv hwin hrange hv
  next => rfl

theorem fieldWrite_eq_maskedWrite (value : Nat) (hwin : win.length = f.w.bytes)
    (hrange : f.boff + f.bwid ≤ 8 * f.w.bytes) (hv : f.bwid ≤ 8 * f.v.bytes) :
    fieldWrite f win value = maskedWrite win f.w.bytes f.boff f.bwid f.v.bytes value := by
  rw [fieldWrite]
  split
  next htriv => exact trivWrite_eq_maskedWrite value htriv hwin hrange hv
  next => rfl

end FieldPath

/-- R117: the written window's number `(X AND NOT M) OR ((v << BOFF) AND M)`, bit by bit. -/
theorem testBit_mergedNumber {w boff bwid x : Nat} (value : Nat) (hx : x < 2 ^ (8 * w))
    (hrange : boff + bwid ≤ 8 * w) (k : Nat) :
    ((x &&& (2 ^ (8 * w) - 1 - ((1 <<< bwid) - 1) <<< boff)) |||
        ((value <<< boff) &&& ((1 <<< bwid) - 1) <<< boff)).testBit k =
      if boff ≤ k ∧ k < boff + bwid then value.testBit (k - boff) else x.testBit k := by
  have hmask : val (mask w boff bwid) < 2 ^ (8 * w) := by
    simpa using val_lt (mask w boff bwid)
  rw [← val_mask hrange, Nat.sub_sub, Nat.add_comm 1, Nat.testBit_or, Nat.testBit_and,
    Nat.testBit_and, Nat.testBit_two_pow_sub_succ hmask, testBit_val_mask_of_fits hrange,
    Nat.testBit_shiftLeft]
  by_cases hin : boff ≤ k ∧ k < boff + bwid
  · simp [hin]
  · by_cases hk : k < 8 * w
    · simp [hin, hk]
    · have hzero : x.testBit k = false :=
        Nat.testBit_lt_two_pow (hx.trans_le (Nat.pow_le_pow_right Nat.two_pos (by omega)))
      simp [hin, hzero]

/-- R117, the write half. -/
theorem val_maskedWrite {win : List Byte} {w boff bwid v : Nat} (value : Nat)
    (hwin : win.length = w) (hrange : boff + bwid ≤ 8 * w) (hv : bwid ≤ 8 * v) :
    val (maskedWrite win w boff bwid v value) =
      (val win &&& (2 ^ (8 * w) - 1 - ((1 <<< bwid) - 1) <<< boff)) |||
        ((value <<< boff) &&& ((1 <<< bwid) - 1) <<< boff) := by
  apply Nat.eq_of_testBit_eq
  intro k
  rw [testBit_val_maskedWrite value hwin hrange hv,
    testBit_mergedNumber value (hwin ▸ val_lt win) hrange]

/-- Settles O28: the masked path obeys the law, and the path a field takes is the masked one. -/
theorem fieldValueLaw : Obligations.FieldValueLaw := by
  intro f win value ⟨_, _, hrange⟩ hv hwin _ x m after
  have hread := maskedRead_eq hwin hrange hv
  have hwrite := val_maskedWrite value hwin hrange hv
  rw [fieldRead_eq_maskedRead hwin hrange hv, fieldWrite_eq_maskedWrite value hwin hrange hv]
  exact ⟨hread, hread, hwrite, hwrite, maskedWrite_length _ _ _ _ hwin⟩

/-! ### A field in BUF, on either path (R117, R119, R122) -/

section FieldInBuf

variable {nbuf : Nat} {s t : State} {f : Field}

theorem fieldValue_eq (hf : FieldLegal nbuf f) :
    s.fieldValue f = fieldNumber f (windowNumber s f.wbase f.w) := by
  obtain ⟨⟨-, -, hrange⟩, hv, -⟩ := hf
  have hlen : (s.window f.wbase f.w).length = f.w.bytes := Memory.readBytes_length ..
  rw [State.fieldValue, fieldRead_eq_maskedRead hlen hrange hv]
  exact maskedRead_eq hlen hrange hv

/-- A field's number is made of its bits of BUF alone. -/
theorem testBit_fieldNumber (hf : FieldLegal nbuf f) (k : Nat) :
    (fieldNumber f (windowNumber s f.wbase f.w)).testBit k =
      (decide (k < f.bwid) && bufBit s (fieldStart f + k)) := by
  obtain ⟨⟨-, -, hrange⟩, -, -⟩ := hf
  rw [fieldNumber, Nat.testBit_mod_two_pow, Nat.testBit_shiftRight]
  by_cases hk : k < f.bwid
  · rw [fieldStart, Nat.add_assoc, bufBit_of_window (n := f.w.bytes) (by omega)]
    rfl
  · rw [decide_eq_false hk, Bool.false_and, Bool.false_and]

theorem fieldNumber_congr (hf : FieldLegal nbuf f)
    (h : ∀ k, InField f k → bufBit t k = bufBit s k) :
    fieldNumber f (windowNumber t f.wbase f.w) = fieldNumber f (windowNumber s f.wbase f.w) := by
  apply Nat.eq_of_testBit_eq
  intro k
  rw [testBit_fieldNumber hf, testBit_fieldNumber hf]
  by_cases hk : k < f.bwid
  · rw [h (fieldStart f + k) ⟨by omega, by omega⟩]
  · rw [decide_eq_false hk, Bool.false_and, Bool.false_and]

/-- RESULT holds a field's number whole, a field having at most 64 bits (R23, R163). -/
theorem zext64_fieldNumber_toNat (hf : FieldLegal nbuf f) (x : Nat) :
    (zext64 (fieldNumber f x)).toNat = fieldNumber f x := by
  obtain ⟨⟨-, hmax, -⟩, -, -⟩ := hf
  exact zext64_toNat <| (Nat.mod_lt _ (Nat.two_pow_pos _)).trans_le <|
    Nat.pow_le_pow_right Nat.two_pos hmax

/-- R119, R122: the field's bits take those of DATA, and every other bit of BUF is kept. -/
theorem bufBit_storeField (data : Word64) (hwf : Memory.wf s.buf = true)
    (hf : FieldLegal nbuf f) (k : Nat) :
    bufBit (s.storeField f data) k =
      if InField f k then data.getLsbD (k - fieldStart f) else bufBit s k := by
  have hlen : (s.window f.wbase f.w).length = f.w.bytes := Memory.readBytes_length ..
  rw [bufBit_of_buf_eq_writeBytes hwf (State.storeField_buf s f data), fieldWrite_length _ hf hlen]
  obtain ⟨⟨-, -, hrange⟩, hv, -⟩ := hf
  by_cases hwindow : 8 * f.wbase ≤ k ∧ k < 8 * f.wbase + 8 * f.w.bytes
  · obtain ⟨j, rfl⟩ := Nat.exists_eq_add_of_le hwindow.1
    have hiff : InField f (8 * f.wbase + j) ↔ f.boff ≤ j ∧ j < f.boff + f.bwid := by
      simp only [InField, fieldStart]
      omega
    rw [if_pos hwindow, fieldWrite_eq_maskedWrite _ hlen hrange hv,
      testBit_val_maskedWrite _ hlen hrange hv, Nat.add_sub_cancel_left,
      bufBit_of_window (n := f.w.bytes) (by omega)]
    simp only [hiff]
    split
    next hin =>
      rw [fieldStart, Nat.add_sub_add_left, dataValue, trunc, Nat.testBit_mod_two_pow,
        decide_eq_true (by omega), Bool.true_and]
      rfl
    next => rfl
  · have hout : ¬InField f k := by
      simp only [InField, fieldStart]
      omega
    rw [if_neg hwindow, if_neg hout]

/-- What the field reads as once DATA has been stored in it (R123). -/
theorem fieldNumber_storeField (data : Word64) (hwf : Memory.wf s.buf = true)
    (hf : FieldLegal nbuf f) :
    fieldNumber f (windowNumber (s.storeField f data) f.wbase f.w) =
      dataValue f.v data % 2 ^ f.bwid := by
  have ⟨_, hv, _⟩ := hf
  apply Nat.eq_of_testBit_eq
  intro k
  rw [testBit_fieldNumber hf, bufBit_storeField data hwf hf, dataValue, trunc,
    Nat.testBit_mod_two_pow, Nat.testBit_mod_two_pow]
  by_cases hk : k < f.bwid
  · rw [if_pos ⟨by omega, by omega⟩, Nat.add_sub_cancel_left,
      decide_eq_true (show k < 8 * f.v.bytes by omega), Bool.true_and]
    rfl
  · rw [decide_eq_false hk, Bool.false_and, Bool.false_and]

/-- R101: a field's bits lie in the bytes it spans. -/
theorem inSpan_of_inField {k : Nat} (h : InField f k) : InSpan f (k / 8) := by
  simp only [InField, fieldStart] at h
  simp only [InSpan, byteOffset, byteCount, bitOffsetInByte]
  omega

end FieldInBuf

/-! ### What FRD, FWR, FWRC and FIS answer (R118 to R121) -/

section FieldCommands

variable {s : State} {f : Field}

theorem fieldError_read_eq_none (hf : FieldLegal s.nbuf f) (hacc : f.acc ≠ .wo) :
    fieldError s.nbuf f .read = none :=
  (fieldError_eq_none_iff _ _ _).mpr
    ⟨hf, accessAllows_read (acc := some f.acc) (mt Option.some.inj hacc)⟩

theorem fieldError_write_eq_none (hf : FieldLegal s.nbuf f) (hacc : f.acc ≠ .ro) :
    fieldError s.nbuf f .write = none :=
  (fieldError_eq_none_iff _ _ _).mpr
    ⟨hf, accessAllows_write (acc := some f.acc) (mt Option.some.inj hacc)⟩

theorem exec_frd (hrun : Running s) (hf : FieldLegal s.nbuf f) (hacc : f.acc ≠ .wo) :
    exec (.frd f) s =
      .next ((s.setResult (zext64 (fieldNumber f (windowNumber s f.wbase f.w)))).setTriv
        (fieldTrivial f)) := by
  have hok : instrError s.nbuf (.frd f) = none := fieldError_read_eq_none hf hacc
  rw [exec_completes hrun hok, instrEffect, fieldValue_eq hf]

theorem exec_fis (d : Word64) (hrun : Running s) (hf : FieldLegal s.nbuf f) (hacc : f.acc ≠ .wo) :
    exec (.fis f d) s =
      .next ((s.setFlag (flagEqual (fieldNumber f (windowNumber s f.wbase f.w))
        (dataValue f.v d))).setTriv (fieldTrivial f)) := by
  have hok : instrError s.nbuf (.fis f d) = none := fieldError_read_eq_none hf hacc
  rw [exec_completes hrun hok, instrEffect, fieldValue_eq hf]

/-- R120: FWR and FWRC answer alike. -/
theorem exec_fwr_or_fwrc {i : Instr} {d : Word64} (hi : i = .fwr f d ∨ i = .fwrc f d)
    (hrun : Running s) (hf : FieldLegal s.nbuf f) (hacc : f.acc ≠ .ro) :
    exec i s = .next (s.storeField f d) := by
  have hok := fieldError_write_eq_none hf hacc
  obtain rfl | rfl := hi <;> exact exec_completes hrun hok

theorem running_storeField (d : Word64) (hrun : Running s) : Running (s.storeField f d) :=
  (statusHalt_withTriv s.status (fieldTrivial f)).trans hrun

end FieldCommands

/-- Settles O29. -/
theorem frdResult : Obligations.FrdResult := by
  intro s f hrun hf hacc
  rw [exec_frd hrun hf hacc, fieldTrivial_eq_decide]
  rfl

/-- Settles O30: BUF of the answer is the one that both commands store, told bit by bit. -/
theorem fwrAndFwrcResult : Obligations.FwrAndFwrcResult := by
  intro s f d hrun ⟨_, _, hwf, _⟩ hf hacc
  have hbits := bufBit_storeField d hwf hf
  refine ⟨(s.storeField f d).buf, fun i hi => ?_, fun k hin => ?_, fun k hout => ?_,
    fun a hout => ?_⟩
  · rw [exec_fwr_or_fwrc hi hrun hf hacc, ← fieldTrivial_eq_decide]
    rfl
  · exact (hbits k).trans (if_pos hin)
  · exact (hbits k).trans (if_neg hout)
  · exact storeField_readByte_outside d hwf (fieldError_write_eq_none hf hacc) hout

/-- Settles O31. -/
theorem fisResult : Obligations.FisResult := by
  intro s f d hrun hf hacc
  rw [exec_fis d hrun hf hacc, fieldTrivial_eq_decide, flagEqual, beq_eq_decide]
  rfl

/-- Settles O32: the field's bits in the later state are those the write left, which are DATA's. -/
theorem fieldRoundTrip : Obligations.FieldRoundTrip := by
  intro s t u f d e i hrun ⟨_, _, hwf, _⟩ hf hacc hi h hu hnbuf hsame hcomparand
  rw [exec_fwr_or_fwrc hi hrun hf (by simp [hacc])] at h
  injection h with h
  subst h
  have hbits : ∀ k, InField f k → bufBit u k = bufBit (s.storeField f d) k := fun k hk => by
    rw [bufBit, hsame _ (inSpan_of_inField hk), bufBit]
  have hvalue : fieldNumber f (windowNumber u f.wbase f.w) = dataValue f.v d % 2 ^ f.bwid := by
    rw [fieldNumber_congr hf hbits, fieldNumber_storeField d hwf hf]
  have hfu : FieldLegal u.nbuf f := hnbuf ▸ hf
  have hread : f.acc ≠ .wo := by simp [hacc]
  refine ⟨⟨_, exec_frd hu hfu hread, ?_⟩, ⟨_, exec_fis e hu hfu hread, ?_⟩⟩
  · rw [State.setTriv_result, State.setResult_result, zext64_fieldNumber_toNat hf, hvalue]
    rfl
  · rw [State.setTriv_flag, State.setFlag_flag, hvalue, flagEqual, beq_iff_eq]
    exact hcomparand.symm

/-- Settles O33: the write keeps every bit outside A, and FRD of B depends on B's bits alone. -/
theorem disjointFieldsDoNotInterfere : Obligations.DisjointFieldsDoNotInterfere := by
  intro s t a b d i hrun ⟨_, _, hwf, _⟩ ha hb hwrite hread hdisjoint hi h
  rw [exec_fwr_or_fwrc hi hrun ha hwrite] at h
  injection h with h
  subst h
  have hkept : ∀ k, ¬InField a k → bufBit (s.storeField a d) k = bufBit s k := fun k hout =>
    (bufBit_storeField d hwf ha k).trans (if_neg hout)
  have hvalue : fieldNumber b (windowNumber (s.storeField a d) b.wbase b.w) =
      fieldNumber b (windowNumber s b.wbase b.w) :=
    fieldNumber_congr hb fun k hk => hkept k (by omega)
  refine ⟨⟨_, _, exec_frd hrun hb hread, exec_frd (running_storeField d hrun) hb hread, ?_⟩, hkept,
    fun n => storeField_readByte_outside d hwf (fieldError_write_eq_none ha hwrite)⟩
  rw [State.setTriv_result, State.setResult_result, State.setTriv_result, State.setResult_result,
    hvalue]

end Sys2Proof.Machine

/-! The register and buffer family (43_register_buffer.md): what RRD, RWR, BRD, BWR, CLR and NOP answer.
A store is read back byte by byte, and the canonical form has one list only for a BUF that is all zero
(log 5). -/

namespace Sys2Proof.Machine

/-! ### The checks of a window and of an index, broken (R166, R168) -/

theorem windowError_of_not_legal {nbuf a : Nat} {w : Width} (h : ¬WindowLegal nbuf a w) :
    windowError nbuf a w = some .window := by
  have hbroken : windowBroken nbuf a w = true := decide_eq_true (Nat.not_le.mp h)
  rw [windowError, firstError_cons, if_pos hbroken]

theorem indexError_of_le {nbuf idx : Nat} (h : nbuf ≤ idx) : indexError nbuf idx = some .index := by
  have hbroken : indexBroken nbuf idx = true := decide_eq_true h
  rw [indexError, firstError_cons, if_pos hbroken]

/-! ### The bytes of a value (R10, R43) -/

/-- R10: byte `j` of `v` is `(v div 2^(8j)) mod 256`. -/
theorem bytesOf_getD {len j : Nat} (v : Nat) (hj : j < len) :
    (bytesOf len v).getD j 0 = BitVec.ofNat 8 (v >>> (8 * j)) := by
  induction len generalizing v j with
  | zero => omega
  | succ len ih =>
    cases j with
    | zero => rfl
    | succ j =>
      have hshift : (v / 256) >>> (8 * j) = v >>> (8 * (j + 1)) := by
        rw [Nat.mul_succ, Nat.add_comm, Nat.shiftRight_add, Nat.shiftRight_eq_div_pow v 8]
      rw [bytesOf, List.getD_cons_succ, ih (v / 256) (by omega), hshift]

/-- R43: the bytes RWR stores are those of DATA. -/
theorem bytesOf_dataValue_getD {w : Width} {j : Nat} (d : Word64) (hj : j < w.bytes) :
    (bytesOf w.bytes (dataValue w d)).getD j 0 = d.extractLsb' (8 * j) 8 := by
  rw [dataValue, trunc, bytesOf_mod, bytesOf_getD d.toNat hj]
  rfl

/-! ### What a store of a value and a zeroing leave in BUF (R141, R145) -/

theorem Memory.readByte_writeVal_inside {m : Memory} {a n j : Nat} (v : Nat)
    (hwf : Memory.wf m = true) (hj : j < n) :
    (m.writeVal a n v).readByte (a + j) = (bytesOf n v).getD j 0 := by
  rw [Memory.writeVal, Memory.readByte_writeBytes _ _ _ _ hwf, bytesOf_length, if_pos (by omega),
    Nat.add_sub_cancel_left]

theorem Memory.readByte_writeVal_outside {m : Memory} {a n k : Nat} (v : Nat)
    (hwf : Memory.wf m = true) (hout : ¬(a ≤ k ∧ k < a + n)) :
    (m.writeVal a n v).readByte k = m.readByte k :=
  Memory.readByte_writeBytes_outside hwf (by rwa [bytesOf_length])

/-- An address that is not listed reads 0 (log 5). -/
theorem Memory.readByte_unlisted {m : Memory} {k : Nat} (h : ∀ c ∈ m, c.1 ≠ k) :
    m.readByte k = 0 := by
  induction m with
  | nil => rfl
  | cons c m ih =>
    obtain ⟨hc, hm⟩ := List.forall_mem_cons.mp h
    rw [Memory.readByte, if_neg hc.symm, ih hm]

/-- The canonical form lists no byte of a BUF that reads 0 everywhere. -/
theorem Memory.eq_nil_of_readByte_eq_zero {m : Memory} (hwf : Memory.wf m = true)
    (hzero : ∀ k, m.readByte k = 0) : m = [] := by
  cases m with
  | nil => rfl
  | cons c m =>
    obtain ⟨hc, -, -⟩ := (Memory.wf_cons c m).mp hwf
    have hread : Memory.readByte (c :: m) c.1 = c.2 := if_pos rfl
    exact absurd (hread.symm.trans (hzero c.1)) hc

theorem Memory.readByte_zeroed {m : Memory} (n k : Nat) (hwf : Memory.wf m = true) :
    (m.zeroed n).readByte k = if k < n then 0 else m.readByte k := by
  rw [Memory.zeroed, Memory.readByte_writeBytes _ _ _ _ hwf, List.length_replicate, Nat.zero_add,
    Nat.sub_zero]
  by_cases hk : k < n
  · rw [if_pos ⟨Nat.zero_le k, hk⟩, if_pos hk, List.getD_replicate _ hk]
  · rw [if_neg fun ⟨_, hlt⟩ => hk hlt, if_neg hk]

/-- R145, R183: zeroing a BUF that lies below `n` leaves nothing listed. -/
theorem Memory.zeroed_eq_nil {m : Memory} {n : Nat} (hwf : Memory.wf m = true)
    (hbelow : ∀ c ∈ m, c.1 < n) : m.zeroed n = [] := by
  refine Memory.eq_nil_of_readByte_eq_zero (Memory.wf_zeroed m n hwf) fun k => ?_
  rw [Memory.readByte_zeroed n k hwf]
  split
  next => rfl
  next hk => exact Memory.readByte_unlisted fun c hc heq => hk (heq ▸ hbelow c hc)

/-! ### RESULT of a register read and of a byte read (R140, R143) -/

theorem zext64_toNat_eq_zeroExtend (b : Byte) : zext64 b.toNat = b.zeroExtend 64 :=
  BitVec.eq_of_toNat_eq <| (zext64_byte_toNat b).trans
    (BitVec.toNat_setWidth_of_le (by decide)).symm

/-- Bit `k` of RESULT is bit `k` of the window, and 0 above the window. -/
theorem getLsbD_zext64_readVal (s : State) (w : Width) (a k : Nat) :
    (zext64 (s.buf.readVal a w.bytes)).getLsbD k =
      (decide (k < 8 * w.bytes) && bufBit s (8 * a + k)) := by
  rw [BitVec.getLsbD, zext64_readVal_toNat]
  by_cases hk : k < 8 * w.bytes
  · rw [decide_eq_true hk, Bool.true_and, bufBit_of_window hk]
  · rw [decide_eq_false hk, Bool.false_and]
    exact Nat.testBit_lt_two_pow <| (s.buf.readVal_lt a w.bytes).trans_le <|
      Nat.pow_le_pow_right Nat.two_pos (Nat.not_lt.mp hk)

/-! ### What BWR answers (R144) -/

theorem exec_bwr {s : State} {idx : Nat} {d : Word64} (hrun : Running s) (hidx : idx < s.nbuf) :
    exec (.bwr idx d) s = .next (s.setBuf (s.buf.writeByte idx (dataByte d))) :=
  exec_completes hrun ((indexError_eq_none_iff ..).mpr hidx)

/-! ### The obligations of the registers, bytes and the buffer -/

/-- Settles O34: RESULT holds the window's value, whose bits are those of BUF. -/
theorem rrdResult : Obligations.RrdResult := by
  intro s w a hrun
  refine ⟨fun hwin => ?_, fun hpast => exec_raises hrun (windowError_of_not_legal hpast)⟩
  exact ⟨_, exec_rrd hrun hwin, getLsbD_zext64_readVal s w a⟩

/-- Settles O35: BUF of the answer is the old one with DATA's low bytes stored over the window. -/
theorem rwrResult : Obligations.RwrResult := by
  intro s w a d hrun ⟨_, _, hwf, _⟩
  refine ⟨fun hwin => ?_, fun hpast => exec_raises hrun (windowError_of_not_legal hpast)⟩
  refine ⟨_, exec_rwr hrun hwin, fun j hj => ?_, fun k hout => ?_⟩
  · rw [Memory.readByte_writeVal_inside _ hwf hj, bytesOf_dataValue_getD d hj]
  · exact Memory.readByte_writeVal_outside _ hwf hout

/-- Settles O36: zero-extending the byte is taking its value as a word of 64 bits. -/
theorem brdResult : Obligations.BrdResult := by
  intro s idx hrun
  refine ⟨fun hidx => ?_, fun hpast => exec_raises hrun (indexError_of_le hpast)⟩
  rw [exec_brd hrun hidx, zext64_toNat_eq_zeroExtend]
  rfl

/-- Settles O37: a byte write is read back at its index alone. -/
theorem bwrResult : Obligations.BwrResult := by
  intro s idx d hrun ⟨_, _, hwf, _⟩
  refine ⟨fun hidx => ?_, fun hpast => exec_raises hrun (indexError_of_le hpast)⟩
  exact ⟨_, exec_bwr hrun hidx, fun a => Memory.readByte_writeByte s.buf idx a _ hwf⟩

/-- Settles O38: a sound BUF lists bytes below NBUF only, and CLR zeroes all of these. -/
theorem clrResult : Obligations.ClrResult := by
  intro s hrun ⟨_, _, hwf, hbelow⟩
  rw [exec_completes hrun rfl, instrEffect, Memory.zeroed_eq_nil hwf hbelow]
  rfl

/-- Settles O39: NOP has no check to break, and its effect is none. -/
theorem nopResult : Obligations.NopResult := fun _ hrun => exec_completes hrun rfl

end Sys2Proof.Machine

/-! The exceptions family (60_exceptions.md): which error a word raises, that the error action does
nothing else, and that a halted BFC stays as it is until a reset. Every word's error is `wordError`,
and the port answers that error exactly by its error action (`runCommand_eq_raiseError_iff`). -/

namespace Sys2Proof

/-! ### The words that do not decode (R162) -/

/-- R63: of the four codes of ACC only 0b11 is no permission. -/
theorem accessOfCode_eq_none_iff {n : Nat} (hn : n < 4) : accessOfCode n = none ↔ n = 3 := by
  interval_cases n <;> simp [accessOfCode]

theorem Cmd.acc_lt (c : Cmd) : c.acc < 4 := (c.extractLsb' 4 2).isLt

/-- A descriptor is refused for its ACC alone (R63). -/
theorem decodeField_error_iff {c : Cmd} : (∃ x, decodeField c = .error x) ↔ c.acc = 3 := by
  rw [← accessOfCode_eq_none_iff c.acc_lt, decodeField]
  cases accessOfCode c.acc <;> simp

theorem decodeField_map_error_iff {c : Cmd} {g : Field → Instr} :
    (∃ x, (decodeField c).map g = .error x) ↔ c.acc = 3 := by
  rw [← decodeField_error_iff]
  cases decodeField c <;> simp [Except.map]

/-- A row refuses only the ACC of a field command. -/
theorem decodeRow_error_iff {c : Cmd} {d : Word64} :
    (∃ x, decodeRow c d = .error x) ↔ c.op ∈ [0x1, 0x2, 0x3, 0x4] ∧ c.acc = 3 := by
  simp only [decodeRow]
  split
  -- FRD, FWR, FWRC, FIS
  case h_2 hop | h_3 hop | h_4 hop | h_5 hop => simp [hop, decodeField_map_error_iff]
  -- OP = 0xF, since no OP of a field command is left
  case h_16 => grind
  -- every other row answers a command
  all_goals
    rename_i hop
    simp [hop]

/-- R69, R71: a word decodes unless it is a reserved spelling. -/
theorem decode_error_iff {c : Cmd} {d : Word64} :
    (∃ x, decode c d = .error x) ↔
      c &&& rowMask c.op ≠ rowMatch c.op ∨ (c.op ∈ [0x1, 0x2, 0x3, 0x4] ∧ c.acc = 3) := by
  rw [decode]
  by_cases hrow : c &&& rowMask c.op = rowMatch c.op
  · rw [if_pos hrow, decodeRow_error_iff, or_iff_right (not_not.mpr hrow)]
  · rw [if_neg hrow]
    exact ⟨fun _ => .inl hrow, fun _ => ⟨_, rfl⟩⟩

/-- R70, R71: a word with OP = 0xF passes every test, whatever its other bits and its DATA. -/
theorem decode_of_opF {c : Cmd} (d : Word64) (hop : c.op = 0xF) :
    decode c d = .ok (.reservedOpF (c.extractLsb' 4 28)) := by
  have henc := decodeAfterEncode (.reservedOpF (c.extractLsb' 4 28)) rfl
  rw [encodeCmd, append_opF hop] at henc
  rw [← decode_map_withData c (encodeData (.reservedOpF (c.extractLsb' 4 28))) d, henc]
  rfl

end Sys2Proof

namespace Sys2Proof.Machine

/-! ### The error of a word (R160 to R169) -/

/-- The first broken check is one of those listed. -/
theorem mem_of_firstError {cs : List (Bool × ErrCode)} {e : ErrCode} (h : firstError cs = some e) :
    e ∈ cs.map Prod.snd := by
  induction cs with
  | nil => cases h
  | cons c cs ih =>
    rw [firstError_cons] at h
    split at h
    · injection h with h
      simp [h]
    · exact List.mem_cons_of_mem _ (ih h)

/-- No command that decodes raises ERR_RSVD: it stands in no list of checks. -/
theorem instrError_ne_rsvd (nbuf : Nat) (i : Instr) : instrError nbuf i ≠ some .rsvd := by
  intro h
  cases i with
  | nop | shr | shl | shr1b | shl1b | clr | reservedOpF => cases h
  | frd | fwr | fwrc | fis | rrd | rwr | mask | brd | bwr => simpa using mem_of_firstError h

/-- R162: ERR_RSVD is the error of the words that do not decode. -/
theorem wordError_eq_rsvd_iff {nbuf : Nat} {c : Cmd} {d : Word64} :
    wordError nbuf c = some .rsvd ↔ ∃ x, decode c d = .error x := by
  cases hdec : decode c d with
  | error x => simp [wordError_of_decode_error nbuf hdec]
  | ok i => simp [wordError_of_decode_ok nbuf hdec, instrError_ne_rsvd]

theorem wordError_of_opF {c : Cmd} (nbuf : Nat) (hop : c.op = 0xF) :
    wordError nbuf c = some .opcode :=
  wordError_of_decode_ok nbuf (decode_of_opF 0 hop)

/-! ### The error action (R170) -/

@[simp] theorem State.raiseError_halted (s : State) (e : ErrCode) (c : Cmd) :
    (s.raiseError e c).halted = true :=
  statusHalt_withError s.status e

/-- ECODE tells the error actions of a word apart (R160). -/
theorem State.raiseError_inj {s : State} {e e' : ErrCode} {c : Cmd}
    (h : s.raiseError e c = s.raiseError e' c) : e = e' := by
  have hecode := congrArg (fun t : State => statusEcode t.status) h
  simp only [State.raiseError_status, statusEcode_withError] at hecode
  exact errNumber_injective e e' hecode

/-- A command that completes does not halt BFC. -/
theorem running_instrEffect {s : State} (i : Instr) (hrun : Running s) :
    Running (instrEffect i s) :=
  (controlKept_instrEffect i s).halted.trans hrun

/-- A running BFC answers a word by an error action exactly where the word raises that error. -/
theorem State.runCommand_eq_raiseError_iff {s : State} {c : Cmd} {d : Word64} {e : ErrCode}
    (hrun : Running s) :
    s.runCommand c d = .next (s.raiseError e c) ↔ wordError s.nbuf c = some e := by
  obtain ⟨t, ht⟩ := s.runCommand_answers c d
  rw [ht, Host.Outcome.next.injEq]
  obtain ⟨hhalt, -⟩ | ⟨e', -, herr, rfl⟩ | ⟨i, -, -, hnone, rfl⟩ :=
    State.runCommand_cases_of_word ht
  · exact absurd hhalt (by simp [hrun])
  · rw [herr, Option.some.injEq]
    exact ⟨State.raiseError_inj, fun h => h ▸ rfl⟩
  · have hdiff : instrEffect i s ≠ s.raiseError e c := fun h => by
      have hrunning := running_instrEffect i hrun
      rw [h, Running, State.raiseError_halted] at hrunning
      cases hrunning
    simp [hnone, hdiff]

/-- Settles O4: ERR_RSVD is the error of the words that do not decode, and those with OP = 0xF do. -/
theorem reservedSpellingsRaiseRsvd : Obligations.ReservedSpellingsRaiseRsvd := by
  intro s c d hrun
  rw [State.runCommand_eq_raiseError_iff hrun, ← decode_error_iff (d := d), ← wordError_eq_rsvd_iff]
  refine ⟨fun herr => ⟨fun hop => ?_, herr⟩, fun ⟨_, herr⟩ => herr⟩
  simp [wordError_of_opF s.nbuf hop] at herr

/-- Settles O5: such a word decodes to the command whose only check is always broken. -/
theorem reservedOpcodeRaisesOpcode : Obligations.ReservedOpcodeRaisesOpcode := fun s _ _ hrun hop =>
  (State.runCommand_eq_raiseError_iff hrun).mpr (wordError_of_opF s.nbuf hop)

/-- Settles O10: of a running BFC's answers only the error action is halted, and it keeps all but the
halt, ECODE and ERRCMD. -/
theorem errorActionIsPrecise : Obligations.ErrorActionIsPrecise := by
  refine ⟨fun s e c => ?_, fun s t c d hrun h hhalted => ?_⟩
  · exact ⟨s.raiseError_halted e c, s.raiseError_halted e c, statusEcode_withError s.status e, rfl,
      rfl, rfl, rfl, statusTriv_withError s.status e, statusReserved_withError s.status e, rfl, rfl,
      rfl⟩
  · obtain ⟨hhalt, -⟩ | ⟨e, -, -, rfl⟩ | ⟨i, -, -, -, rfl⟩ := State.runCommand_cases_of_word h
    · exact absurd hhalt (by simp [hrun])
    · exact ⟨e, rfl⟩
    · exact absurd hhalted (by simp [running_instrEffect i hrun])

/-! ### The checks of a field command, in their order (R163 to R167, R169) -/

/-- R110: a permission forbids reading WO and writing RO. -/
theorem accessAllows_iff (acc : Access) (reads : Bool) :
    accessAllows acc (if reads then .read else .write) = true ↔
      ¬((reads = true ∧ acc = .wo) ∨ (reads = false ∧ acc = .ro)) := by
  cases reads <;> cases acc <;> decide

/-- The checks of a field command as bounds, each reached only past the ones before it. -/
theorem fieldError_eq (nbuf : Nat) (f : Field) (need : Need) :
    fieldError nbuf f need =
      if 1 ≤ f.bwid ∧ f.bwid ≤ 64 then
        if f.boff + f.bwid ≤ 8 * f.w.bytes then
          if f.bwid ≤ 8 * f.v.bytes then
            if f.wbase + f.w.bytes ≤ nbuf then
              if accessAllows f.acc need then none else some .access
            else some .window
          else some .value
        else some .range
      else some .width := by
  have hwidth : widthBroken f.bwid = true ↔ ¬(1 ≤ f.bwid ∧ f.bwid ≤ 64) := by
    rw [widthBroken_iff]
    omega
  simp only [fieldError, firstError_cons, firstError_nil, hwidth, rangeBroken, valueBroken,
    windowBroken, decide_eq_true_eq, ← Nat.not_le, Bool.not_eq_true', ← Bool.not_eq_true,
    ite_not]

/-- FRD and FIS read their field, FWR and FWRC write it (R118 to R121). -/
theorem instrError_fieldCommand {f : Field} {d : Word64} {i : Instr} (nbuf : Nat)
    (hi : i = .frd f ∨ i = .fis f d ∨ i = .fwr f d ∨ i = .fwrc f d) :
    instrError nbuf i =
      fieldError nbuf f (if decide (i = .frd f ∨ i = .fis f d) then .read else .write) := by
  obtain rfl | rfl | rfl | rfl := hi <;> simp [instrError]

/-- A running BFC completes a command that breaks no check, and stays running. -/
theorem exec_completes_running {i : Instr} {s : State} (hrun : Running s)
    (hok : instrError s.nbuf i = none) : ∃ t, exec i s = .next t ∧ Running t :=
  ⟨_, exec_completes hrun hok, running_instrEffect i hrun⟩

/-- Settles O12: each clause is one branch of the checks in their order. -/
theorem fieldCommandErrors : Obligations.FieldCommandErrors := by
  intro s f d i hrun hi reads raised shaped fits narrow placed forbidden
  have herr := instrError_fieldCommand s.nbuf hi
  rw [fieldError_eq] at herr
  have hallows := accessAllows_iff f.acc reads
  refine ⟨fun hwidth => exec_raises hrun ?_, fun hshaped hrange => exec_raises hrun ?_,
    fun hshaped hfits hvalue => exec_raises hrun ?_,
    fun hshaped hfits hnarrow hwindow => exec_raises hrun ?_,
    fun hshaped hfits hnarrow hplaced haccess => exec_raises hrun ?_,
    fun hshaped hfits hnarrow hplaced hallowed => exec_completes_running hrun ?_⟩
  · rw [herr, if_neg hwidth]
  · rw [herr, if_pos hshaped, if_neg hrange]
  · rw [herr, if_pos hshaped, if_pos hfits, if_neg hvalue]
  · rw [herr, if_pos hshaped, if_pos hfits, if_pos hnarrow, if_neg hwindow]
  · rw [herr, if_pos hshaped, if_pos hfits, if_pos hnarrow, if_pos hplaced,
      if_neg (mt hallows.mp (not_not.mpr haccess))]
  · rw [herr, if_pos hshaped, if_pos hfits, if_pos hnarrow, if_pos hplaced,
      if_pos (hallows.mpr hallowed)]

/-! ### The halted state (R171 to R173) -/

/-- R171: a halted BFC takes a command off the list and does nothing else. -/
theorem step_command_of_halted {s : State} {c : Cmd} {d : Word64} {rest : List HostAction}
    (hhalted : s.halted = true) (hinputs : s.inputs = .command c d :: rest) :
    step s = .next (s.setInputs rest) := by
  rw [step_action hinputs]
  exact State.runCommand_halted hhalted

/-- Settles O9: every meaning tests the halt, and so does the port. -/
theorem haltedDiscardsCommands : Obligations.HaltedDiscardsCommands := by
  intro s hhalted
  refine ⟨fun i => ?_, fun c d rest => step_command_of_halted hhalted⟩
  rw [exec_eq_command, State.command_halted hhalted]

/-- What a halted BFC does in a step that is no reset: nothing but take the action off the list. -/
theorem step_cases_of_halted {s t : State} (hhalted : s.halted = true) (h : step s = .next t) :
    t = s.setInputs s.inputs.tail ∨ (∃ mode rest, s.inputs = .reset mode :: rest) ∨
      (∃ mode c d rest, s.inputs = .resetInFlight mode c d :: rest) := by
  obtain ⟨hnil, rfl⟩ | ⟨c, d, rest, hcons, -⟩ | ⟨mode, rest, hcons, -⟩ |
    ⟨mode, c, d, rest, hcons, -⟩ := step_cases h
  · rw [hnil, List.tail_nil, ← hnil]
    exact .inl rfl
  · rw [step_command_of_halted hhalted hcons] at h
    injection h with h
    rw [hcons, List.tail_cons]
    exact .inl h.symm
  · exact .inr (.inl ⟨mode, rest, hcons⟩)
  · exact .inr (.inr ⟨mode, c, d, rest, hcons⟩)

/-- Settles O13: the host's list is no output and no part of BUF. -/
theorem onlyResetEndsTheHalt : Obligations.OnlyResetEndsTheHalt := by
  intro s t hhalted h
  obtain rfl | hreset := step_cases_of_halted hhalted h
  · exact .inl ⟨rfl, rfl⟩
  · exact .inr hreset

/-! ### Runs of commands alone (R171, R173) -/

/-- Everything the host will send is a command. -/
def CommandsOnly (s : State) : Prop := ∀ a ∈ s.inputs, ∃ c d, a = .command c d

theorem commandsOnly_of_step {s t : State} (hs : CommandsOnly s) (h : step s = .next t) :
    CommandsOnly t := by
  intro a ha
  rw [step_inputs h] at ha
  exact hs a (List.mem_of_mem_tail ha)

/-- R173: where no reset comes, a step that ends running began running. -/
theorem running_of_step {s t : State} (hs : CommandsOnly s) (h : step s = .next t)
    (ht : Running t) : Running s := by
  by_contra hnot
  obtain rfl | ⟨mode, rest, hcons⟩ | ⟨mode, c, d, rest, hcons⟩ :=
    step_cases_of_halted (Bool.not_eq_false _ ▸ hnot) h
  · exact hnot ht
  · obtain ⟨c, d, heq⟩ := hs (.reset mode) (hcons ▸ List.mem_cons_self)
    cases heq
  · obtain ⟨c', d', heq⟩ := hs (.resetInFlight mode c d) (hcons ▸ List.mem_cons_self)
    cases heq

theorem run_succ_of_step {M : Host.Core} {s t : M.State} (k : Nat) (h : M.step s = .next t) :
    M.run (k + 1) s = M.run k t := by
  rw [Host.Core.run, h]

/-- A successful run is a step and then a successful run. -/
theorem SuccessfulRun.succ_iff {k : Nat} {s u t : State} (h : step s = .next u) :
    SuccessfulRun (k + 1) s t ↔ SuccessfulRun k u t := by
  rw [SuccessfulRun, run_succ_of_step (M := Sys2Proof.core) k h, SuccessfulRun]

/-- Settles O15, by induction on the number of steps: the run's rest was never halted, so its first
state is running, and the step that led there began running. -/
theorem successfulRunNeverHalted : Obligations.SuccessfulRunNeverHalted := by
  intro k
  induction k with
  | zero =>
    rintro s t - ⟨hend, ht⟩ j hj
    obtain rfl := Nat.le_zero.mp hj
    exact ⟨t, hend, ht⟩
  | succ k ih =>
    intro s t hs hrun j hj
    obtain ⟨u, hu⟩ := step_answers s
    have hrest := ih u t (commandsOnly_of_step hs hu) ((SuccessfulRun.succ_iff hu).mp hrun)
    cases j with
    | zero =>
      obtain ⟨v, hv, hrunning⟩ := hrest 0 (Nat.zero_le k)
      injection hv with hv
      exact ⟨s, rfl, running_of_step hs hu (hv ▸ hrunning)⟩
    | succ j =>
      rw [run_succ_of_step (M := Sys2Proof.core) j hu]
      exact hrest j (Nat.le_of_succ_le_succ hj)

end Sys2Proof.Machine

/-! The reset family (70_reset_and_hazards.md): what a reset leaves, at power-up, between commands and
during one. A reset writes every register, so its outputs are the same from every state; BUF after it is
empty from every sound state in ZERO mode (the canonical form lists no 0), and as it was in NOINIT mode.
For the two outcomes of R185, no command and no reset reads the count of free choices: it makes no
difference whether the choice is counted before them or after. -/

namespace Sys2Proof.Machine

/-! ### What a reset leaves (R180, R181, R183) -/

/-- R180: a reset writes every output, so none of them depends on the state before. -/
theorem State.outputs_applyReset_eq (s t : State) (mode : ResetMode) :
    (s.applyReset mode).outputs = (t.applyReset mode).outputs := rfl

/-- R183: the ZERO reset of a sound BUF leaves nothing listed. -/
theorem bufAfterReset_zero_of_bufferOk {s : State} (hs : BufferOk s) :
    s.bufAfterReset .zero = [] := by
  obtain ⟨-, -, hwf, hbelow⟩ := hs
  exact Memory.zeroed_eq_nil hwf hbelow

/-- R180, R183, R184: the ZERO reset of a sound state is State.reset but for the fields that are the
model's own. -/
theorem applyReset_zero_of_bufferOk {s : State} (hs : BufferOk s) :
    s.applyReset .zero = { State.reset with
      nbuf := s.nbuf
      inputs := s.inputs
      choices := s.choices } := by
  rw [State.applyReset, bufAfterReset_zero_of_bufferOk hs]
  rfl

/-! ### The count of free choices is not read by a command (log 4) -/

theorem instrEffect_countChoice (i : Instr) (s : State) :
    instrEffect i s.countChoice = (instrEffect i s).countChoice := by
  cases i <;> rfl

theorem State.command_countChoice {s u : State} {c : Cmd} {err : Option ErrCode}
    {eff : State → State} (heff : eff s.countChoice = (eff s).countChoice)
    (h : s.command c err eff = .next u) : s.countChoice.command c err eff = .next u.countChoice := by
  obtain ⟨hhalted, rfl⟩ | ⟨e, hrun, rfl, rfl⟩ | ⟨hrun, rfl, rfl⟩ := State.command_cases h
  · exact State.command_halted hhalted
  · exact State.command_error hrun
  · rw [← heff]
    exact State.command_effect hrun

/-- A command handed to the port answers the same whether a choice is counted before it or after. -/
theorem State.runCommand_countChoice {s u : State} {c : Cmd} {d : Word64}
    (h : s.runCommand c d = .next u) : s.countChoice.runCommand c d = .next u.countChoice := by
  obtain ⟨hhalted, rfl⟩ | ⟨x, hrun, hdec, rfl⟩ | ⟨i, hrun, hdec, hexec⟩ := State.runCommand_cases h
  · exact State.runCommand_halted hhalted
  · exact State.runCommand_error hrun hdec
  · rw [exec_eq_command] at hexec
    rw [State.runCommand_eq_exec _ hdec, exec_eq_command]
    exact State.command_countChoice (instrEffect_countChoice i s) hexec

theorem State.applyReset_countChoice (s : State) (mode : ResetMode) :
    s.countChoice.applyReset mode = (s.applyReset mode).countChoice := rfl

/-- R185: a reset during a command that answers `u` answers, but for the count, the reset of `u` or the
reset of the state before. -/
theorem State.resetDuring_outcomes {s t u : State} {mode : ResetMode} {c : Cmd} {d : Word64}
    (hu : s.runCommand c d = .next u) (h : s.resetDuring mode c d = .next t) :
    t = (u.applyReset mode).countChoice ∨ t = (s.applyReset mode).countChoice := by
  obtain ⟨v, hv, rfl⟩ | rfl := State.resetDuring_cases h
  · rw [State.runCommand_countChoice hu] at hv
    injection hv with hv
    rw [← hv]
    exact .inl (State.applyReset_countChoice u mode)
  · exact .inr (State.applyReset_countChoice s mode)

/-! ### The obligations of reset -/

/-- A power-on ZERO reset at the default NBUF zeroes whatever BUF0 was. -/
theorem powerOnReset_zero_eq_reset (buf0 : List Byte) :
    State.powerOnReset 96 buf0 .zero = State.reset :=
  applyReset_zero_of_bufferOk (bufferOk_powerUp buf0 (by decide) (by decide))

/-- Settles O44: the ZERO reset of the sound state at power-up is State.reset, all of whose values are
those of R184. -/
theorem resetStateIsZeroReset : Obligations.ResetStateIsZeroReset :=
  ⟨powerOnReset_zero_eq_reset, fun _ => rfl, rfl, rfl, rfl, rfl, rfl, rfl⟩

/-- Settles O45: the step applies the reset to the state without it on the list. -/
theorem resetAction : Obligations.ResetAction := by
  intro s mode rest hs hinputs
  refine ⟨s.bufAfterReset mode, step_action hinputs, ?_, ?_⟩
  · rintro rfl k
    rw [bufAfterReset_zero_of_bufferOk hs]
    rfl
  · rintro rfl
    exact State.bufAfterReset_noinit s

/-- Settles O46: BUF0 stored from index 0 is read back byte by byte. -/
theorem powerOnNoinitHoldsBuf0 : Obligations.PowerOnNoinitHoldsBuf0 := by
  rintro nbuf buf0 rfl
  refine ⟨fun k hk => ?_, rfl, rfl, rfl, rfl, rfl⟩
  have hbuf : (State.powerOnReset buf0.length buf0 .noinit).buf = Memory.writeBytes [] 0 buf0 :=
    congrArg (Memory.writeBytes [] 0) buf0.take_length
  rw [hbuf, Memory.readByte_writeBytes [] 0 k buf0 Memory.wf_reset, if_pos (by omega), Nat.sub_zero,
    List.getD_eq_getElem _ _ hk, List.getElem?_eq_getElem hk]

/-- Settles O47: whichever outcome is chosen, the answer is that outcome's reset but for the count; in
ZERO mode both are the reset of a sound state. -/
theorem resetInFlightHasTwoOutcomes : Obligations.ResetInFlightHasTwoOutcomes := by
  intro s u mode c d rest hs hinputs hu
  obtain ⟨t, ht⟩ := step_answers s
  have htail : t.inputs = rest := by rw [step_inputs ht, hinputs, List.tail_cons]
  refine ⟨t, ht, htail, (bufferKept_step ht).1, ?_, ?_⟩
  · rw [step_action hinputs] at ht
    obtain rfl | rfl := State.resetDuring_outcomes hu ht
    · exact .inl ⟨rfl, rfl⟩
    · exact .inr ⟨rfl, rfl⟩
  · rintro rfl
    have hsu : BufferOk u := (bufferKept_runCommand hu).2 hs
    refine ⟨State.outputs_applyReset_eq .., ?_⟩
    rw [State.applyReset_buf, State.applyReset_buf, bufAfterReset_zero_of_bufferOk hsu,
      bufAfterReset_zero_of_bufferOk hs]

/-- Settles O51: State.reset is a power-on reset, which meets the invariants at every NBUF. -/
theorem resetMeetsInvariants : Obligations.ResetMeetsInvariants := by
  have hpower := powerOnMeetsInvariants 96 [] .zero (by decide) (by decide)
  rwa [powerOnReset_zero_eq_reset] at hpower

end Sys2Proof.Machine

/-! The model's own command for the row of OP = 0xF (60_exceptions.md section 1, log 6): the one command
whose check no operand passes. -/

namespace Sys2Proof.Machine

/-- Settles O6: the command's error is ERR_OPCODE whatever its 28 other bits, so on a running BFC it does
the error action (R170) with its own word. -/
theorem reservedOpFCompletes : Obligations.ReservedOpFCompletes := by
  intro s rest hrun
  have herr : instrError s.nbuf (.reservedOpF rest) = some .opcode := rfl
  calc exec (.reservedOpF rest) s
      = .next (s.raiseError .opcode (encodeCmd (.reservedOpF rest))) := exec_raises hrun herr
    _ = .next { s with status := withError s.status .opcode, errcmd := rest ++ 0xF#4 } := rfl

end Sys2Proof.Machine
